-- ==== Sys2Proof/Word.lean ====
section
/-! DEFINITION. The word types of the CHIP-8 core: spec 00_scope R8, R12 and 30_encoding R91.
Every value is an unsigned integer of a fixed width; arithmetic wraps at that width. -/

namespace Sys2Proof

/-- A byte: a cell of memory, a general register, a timer, the immediate `nn` (R8, R91). -/
abbrev Byte := BitVec 8

/-- A 16-bit word: an instruction word, `pc`, `I`, a stack entry, a key mask (R8). -/
abbrev Word := BitVec 16

/-- A 4-bit field: a register index `x` or `y`, a row count `n`, the major opcode (R91). -/
abbrev Nibble := BitVec 4

/-- The 12-bit address field `nnn` (R91). -/
abbrev Addr := BitVec 12

end Sys2Proof
end

