-- ==== Sys2Proof/Config.lean ====
section
/-! DEFINITION. What is fixed for one instance of the block (the variant, spec 00_scope R2, R10), the
commands of the host (40_engine R120), and the free values: the host's choice of commands (60_exceptions R352,
R357) and the inputs of a STEP (40_engine R121), which no law constrains. -/

namespace Sys2Proof

/-- The configuration input `variant` (R2, R10, R20): `classic` is CHIP-8, `extended` is CHIP-8 with
the SUPER-CHIP instructions and display. -/
inductive Variant where
  | classic
  | extended
  deriving DecidableEq, Repr

namespace Machine

/-- A command of the host (R120). -/
inductive Command where
  /-- RESET(variant) (R370) -/
  | reset (v : Variant)
  /-- LOAD_FONT (R68) -/
  | loadFont (bytes : List Byte)
  /-- LOAD_BIG_FONT (R68) -/
  | loadBigFont (bytes : List Byte)
  /-- LOAD_PROGRAM (R68) -/
  | loadProgram (bytes : List Byte)
  /-- STEP(keys, rnd) (R121, R129) -/
  | step (keys : Word) (rnd : Byte)
  /-- TIMER_TICK (R350) -/
  | timerTick
  deriving DecidableEq, Repr, Inhabited

end Machine

/-- FREE VALUE (R352, R357, 93 I6; log entry 6): the `n`-th command the host issues where no schedule names it.
It may be any command of R120 with any operands. It has no body: nothing can be proved about it, so what is
proved holds for every order of commands, and a fairness assumption is a premise about it. -/
opaque Config.freeCommand : Nat → Machine.Command

/-- FREE VALUE (R121, 93 I8; log entry 6): the key mask of a STEP that is known to come but whose inputs no
schedule names, drawn as the `n`-th free choice. It has no body: nothing can be proved about it. -/
opaque Config.freeKeys : Nat → Word

/-- FREE VALUE (R121, 93 I8; log entry 6): the random byte of such a STEP. It has no body: nothing can be
proved about it. -/
opaque Config.freeRnd : Nat → Byte

end Sys2Proof
end

