-- ==== Sys2Proof/Syntax.lean ====
section
/-! DEFINITION. The instructions: one constructor for each of the 44 rows of spec/opcode_table.json
(30_encoding R95, R96), in the table's order. Operands are the fields of R91. -/

namespace Sys2Proof

/-- The instructions of both tables (R95, R96). A register operand is a 4-bit index (R93). -/
inductive Instr where
  /-- `00E0` CLS (R260) -/
  | cls
  /-- `00EE` RET (R150) -/
  | ret
  /-- `1nnn` JP nnn (R151) -/
  | jp (nnn : Addr)
  /-- `2nnn` CALL nnn (R152) -/
  | call (nnn : Addr)
  /-- `3xnn` SE Vx, nn (R153) -/
  | seImm (x : Nibble) (nn : Byte)
  /-- `4xnn` SNE Vx, nn (R154) -/
  | sneImm (x : Nibble) (nn : Byte)
  /-- `5xy0` SE Vx, Vy (R155) -/
  | seReg (x y : Nibble)
  /-- `6xnn` LD Vx, nn (R181) -/
  | ldImm (x : Nibble) (nn : Byte)
  /-- `7xnn` ADD Vx, nn (R182) -/
  | addImm (x : Nibble) (nn : Byte)
  /-- `8xy0` LD Vx, Vy (R183) -/
  | ldReg (x y : Nibble)
  /-- `8xy1` OR Vx, Vy (R184) -/
  | orReg (x y : Nibble)
  /-- `8xy2` AND Vx, Vy (R185) -/
  | andReg (x y : Nibble)
  /-- `8xy3` XOR Vx, Vy (R186) -/
  | xorReg (x y : Nibble)
  /-- `8xy4` ADD Vx, Vy (R187) -/
  | addReg (x y : Nibble)
  /-- `8xy5` SUB Vx, Vy (R188) -/
  | subReg (x y : Nibble)
  /-- `8xy6` SHR Vx, Vy (R189) -/
  | shr (x y : Nibble)
  /-- `8xy7` SUBN Vx, Vy (R190) -/
  | subnReg (x y : Nibble)
  /-- `8xyE` SHL Vx, Vy (R191) -/
  | shl (x y : Nibble)
  /-- `9xy0` SNE Vx, Vy (R156) -/
  | sneReg (x y : Nibble)
  /-- `Annn` LD I, nnn (R230) -/
  | ldI (nnn : Addr)
  /-- `Bnnn` JP V0, nnn (R157) -/
  | jpOffset (nnn : Addr)
  /-- `Cxnn` RND Vx, nn (R192) -/
  | rnd (x : Nibble) (nn : Byte)
  /-- `Dxyn` DRW Vx, Vy, n with `n ≠ 0` (R261, R262) -/
  | drw (x y n : Nibble)
  /-- `Dxy0` DRW Vx, Vy, 0 (R263): the 16×16 form where `variant = Extended` and `high_res = 1`,
  and zero rows everywhere else (R96, R97, R261). Every word `Dxy0` is this constructor (log entry 7). -/
  | drw0 (x y : Nibble)
  /-- `Ex9E` SKP Vx (R300) -/
  | skp (x : Nibble)
  /-- `ExA1` SKNP Vx (R301) -/
  | sknp (x : Nibble)
  /-- `Fx07` LD Vx, DT (R306) -/
  | ldVxDt (x : Nibble)
  /-- `Fx0A` LD Vx, K (R304) -/
  | ldVxK (x : Nibble)
  /-- `Fx15` LD DT, Vx (R307) -/
  | ldDtVx (x : Nibble)
  /-- `Fx18` LD ST, Vx (R308) -/
  | ldStVx (x : Nibble)
  /-- `Fx1E` ADD I, Vx (R231) -/
  | addI (x : Nibble)
  /-- `Fx29` LD F, Vx (R232) -/
  | ldF (x : Nibble)
  /-- `Fx33` LD B, Vx (R234) -/
  | ldB (x : Nibble)
  /-- `Fx55` LD [I], Vx (R235) -/
  | storeRegs (x : Nibble)
  /-- `Fx65` LD Vx, [I] (R236) -/
  | loadRegs (x : Nibble)
  /-- `00Cn` SCD n (R266), Extended only -/
  | scd (n : Nibble)
  /-- `00FB` SCR (R264), Extended only -/
  | scr
  /-- `00FC` SCL (R265), Extended only -/
  | scl
  /-- `00FD` EXIT (R158), Extended only -/
  | exit
  /-- `00FE` LOW (R267), Extended only -/
  | low
  /-- `00FF` HIGH (R268), Extended only -/
  | high
  /-- `Fx30` LD HF, Vx (R233), Extended only -/
  | ldHf (x : Nibble)
  /-- `Fx75` LD R, Vx (R237), Extended only -/
  | saveFlags (x : Nibble)
  /-- `Fx85` LD Vx, R (R238), Extended only -/
  | loadFlags (x : Nibble)
  deriving DecidableEq, Repr

/-- The instructions of the second table (R96), which are illegal words in `Classic`. -/
def Instr.extendedOnly : Instr → Bool
  | .scd _ | .scr | .scl | .exit | .low | .high | .ldHf _ | .saveFlags _ | .loadFlags _ => true
  | .cls | .ret | .jp _ | .call _ | .seImm _ _ | .sneImm _ _ | .seReg _ _ | .ldImm _ _
  | .addImm _ _ | .ldReg _ _ | .orReg _ _ | .andReg _ _ | .xorReg _ _ | .addReg _ _
  | .subReg _ _ | .shr _ _ | .subnReg _ _ | .shl _ _ | .sneReg _ _ | .ldI _ | .jpOffset _
  | .rnd _ _ | .drw _ _ _ | .drw0 _ _ | .skp _ | .sknp _ | .ldVxDt _ | .ldVxK _ | .ldDtVx _
  | .ldStVx _ | .addI _ | .ldF _ | .ldB _ | .storeRegs _ | .loadRegs _ => false

end Sys2Proof
end

