-- ==== Sys2Proof/Decode.lean ====
section
/-! DEFINITION. The decoder and the encoder: 30_encoding R90-R99. The decoder is total on words and on
byte lists, and rejects by name (R94, R99: `illegal w` is IllegalInstruction(w)). -/

namespace Sys2Proof

/-! ## The fields of a word (R91) -/

/-- `op` = w[15:12] -/
def fieldOp (w : Word) : Nibble := w.extractLsb' 12 4
/-- `x` = w[11:8] -/
def fieldX (w : Word) : Nibble := w.extractLsb' 8 4
/-- `y` = w[7:4] -/
def fieldY (w : Word) : Nibble := w.extractLsb' 4 4
/-- `n` = w[3:0] -/
def fieldN (w : Word) : Nibble := w.extractLsb' 0 4
/-- `nn` = w[7:0] -/
def fieldNN (w : Word) : Byte := w.extractLsb' 0 8
/-- `nnn` = w[11:0] -/
def fieldNNN (w : Word) : Addr := w.extractLsb' 0 12

/-! ## The decoder -/

/-- The 0x8 group of the common table (R95): the function is `n`; 8, 9, A, B, C, D and F are illegal (R99). -/
def decodeArith (x y n : Nibble) : Option Instr :=
  match n.toNat with
  | 0x0 => some (.ldReg x y)
  | 0x1 => some (.orReg x y)
  | 0x2 => some (.andReg x y)
  | 0x3 => some (.xorReg x y)
  | 0x4 => some (.addReg x y)
  | 0x5 => some (.subReg x y)
  | 0x6 => some (.shr x y)
  | 0x7 => some (.subnReg x y)
  | 0xE => some (.shl x y)
  | _ => none

/-- The 0xF group of the common table (R95): the function is `nn`. -/
def decodeMisc (x : Nibble) (nn : Byte) : Option Instr :=
  match nn.toNat with
  | 0x07 => some (.ldVxDt x)
  | 0x0A => some (.ldVxK x)
  | 0x15 => some (.ldDtVx x)
  | 0x18 => some (.ldStVx x)
  | 0x1E => some (.addI x)
  | 0x29 => some (.ldF x)
  | 0x33 => some (.ldB x)
  | 0x55 => some (.storeRegs x)
  | 0x65 => some (.loadRegs x)
  | _ => none

/-- The common table (R95), with every nibble that is no operand matched strictly (R98). -/
def decodeCommon (w : Word) : Option Instr :=
  let x := fieldX w
  let y := fieldY w
  let n := fieldN w
  let nn := fieldNN w
  let nnn := fieldNNN w
  match (fieldOp w).toNat with
  | 0x0 =>
    match nnn.toNat with
    | 0x0E0 => some .cls
    | 0x0EE => some .ret
    | _ => none
  | 0x1 => some (.jp nnn)
  | 0x2 => some (.call nnn)
  | 0x3 => some (.seImm x nn)
  | 0x4 => some (.sneImm x nn)
  | 0x5 => if n = 0 then some (.seReg x y) else none
  | 0x6 => some (.ldImm x nn)
  | 0x7 => some (.addImm x nn)
  | 0x8 => decodeArith x y n
  | 0x9 => if n = 0 then some (.sneReg x y) else none
  | 0xA => some (.ldI nnn)
  | 0xB => some (.jpOffset nnn)
  | 0xC => some (.rnd x nn)
  | 0xD => if n = 0 then some (.drw0 x y) else some (.drw x y n)
  | 0xE =>
    match nn.toNat with
    | 0x9E => some (.skp x)
    | 0xA1 => some (.sknp x)
    | _ => none
  | _ => decodeMisc x nn

/-- The second table (R96), consulted in `Extended` only. -/
def decodeExtended (w : Word) : Option Instr :=
  let x := fieldX w
  match (fieldOp w).toNat with
  | 0x0 =>
    if x = 0 ∧ fieldY w = 0xC#4 then some (.scd (fieldN w)) else
    match (fieldNNN w).toNat with
    | 0x0FB => some .scr
    | 0x0FC => some .scl
    | 0x0FD => some .exit
    | 0x0FE => some .low
    | 0x0FF => some .high
    | _ => none
  | 0xF =>
    match (fieldNN w).toNat with
    | 0x30 => some (.ldHf x)
    | 0x75 => some (.saveFlags x)
    | 0x85 => some (.loadFlags x)
    | _ => none
  | _ => none

/-- Decode (R94, R124): the common table first, then, in `Extended`, the second table. `none` is
IllegalInstruction(w). It reads only the word and the variant. -/
def decodeWord (v : Variant) (w : Word) : Option Instr :=
  match decodeCommon w with
  | some i => some i
  | none =>
    match v with
    | .classic => none
    | .extended => decodeExtended w

/-- Two bytes joined big-endian: the byte at the lower address is bits 15:8 (R64). -/
def joinBytes (hi lo : Byte) : Word := hi ++ lo

/-- What the decoder answers on a list of bytes. -/
inductive DecodeResult where
  /-- an instruction, and the bytes after it (every instruction is two bytes, R90) -/
  | instr (i : Instr) (rest : List Byte)
  /-- no row of the variant's tables matches: IllegalInstruction(w) (R94, R99) -/
  | illegal (w : Word)
  /-- fewer than two bytes are left, so there is no word -/
  | truncated
  deriving DecidableEq, Repr

/-- The decoder on bytes, total, rejecting by name (R64, R90, R94). -/
def decodeBytes (v : Variant) : List Byte → DecodeResult
  | hi :: lo :: rest =>
    match decodeWord v (joinBytes hi lo) with
    | some i => .instr i rest
    | none => .illegal (joinBytes hi lo)
  | _ => .truncated

/-! ## The encoder, from the same tables (R92, R95, R96) -/

/-- Format `NNN`: op, nnn. -/
def packNNN (op : Nibble) (nnn : Addr) : Word := op ++ nnn
/-- Format `XNN`, and format `X` with its function in `nn`: op, x, nn. -/
def packXNN (op x : Nibble) (nn : Byte) : Word := (op ++ x : Byte) ++ nn
/-- Formats `XY` and `XYN`: op, x, y, n. -/
def packXYN (op x y n : Nibble) : Word := (op ++ x : Byte) ++ (y ++ n : Byte)

/-- The word of an instruction, from the encodings of R95 and R96. -/
def encode : Instr → Word
  | .cls => 0x00E0
  | .ret => 0x00EE
  | .jp nnn => packNNN 0x1 nnn
  | .call nnn => packNNN 0x2 nnn
  | .seImm x nn => packXNN 0x3 x nn
  | .sneImm x nn => packXNN 0x4 x nn
  | .seReg x y => packXYN 0x5 x y 0x0
  | .ldImm x nn => packXNN 0x6 x nn
  | .addImm x nn => packXNN 0x7 x nn
  | .ldReg x y => packXYN 0x8 x y 0x0
  | .orReg x y => packXYN 0x8 x y 0x1
  | .andReg x y => packXYN 0x8 x y 0x2
  | .xorReg x y => packXYN 0x8 x y 0x3
  | .addReg x y => packXYN 0x8 x y 0x4
  | .subReg x y => packXYN 0x8 x y 0x5
  | .shr x y => packXYN 0x8 x y 0x6
  | .subnReg x y => packXYN 0x8 x y 0x7
  | .shl x y => packXYN 0x8 x y 0xE
  | .sneReg x y => packXYN 0x9 x y 0x0
  | .ldI nnn => packNNN 0xA nnn
  | .jpOffset nnn => packNNN 0xB nnn
  | .rnd x nn => packXNN 0xC x nn
  | .drw x y n => packXYN 0xD x y n
  | .drw0 x y => packXYN 0xD x y 0x0
  | .skp x => packXNN 0xE x 0x9E
  | .sknp x => packXNN 0xE x 0xA1
  | .ldVxDt x => packXNN 0xF x 0x07
  | .ldVxK x => packXNN 0xF x 0x0A
  | .ldDtVx x => packXNN 0xF x 0x15
  | .ldStVx x => packXNN 0xF x 0x18
  | .addI x => packXNN 0xF x 0x1E
  | .ldF x => packXNN 0xF x 0x29
  | .ldB x => packXNN 0xF x 0x33
  | .storeRegs x => packXNN 0xF x 0x55
  | .loadRegs x => packXNN 0xF x 0x65
  | .scd n => packXYN 0x0 0x0 0xC n
  | .scr => 0x00FB
  | .scl => 0x00FC
  | .exit => 0x00FD
  | .low => 0x00FE
  | .high => 0x00FF
  | .ldHf x => packXNN 0xF x 0x30
  | .saveFlags x => packXNN 0xF x 0x75
  | .loadFlags x => packXNN 0xF x 0x85

/-- The bytes of an instruction as memory holds them: the high byte at the lower address (R64). -/
def encodeBytes (i : Instr) : List Byte :=
  [(encode i).extractLsb' 8 8, (encode i).extractLsb' 0 8]

/-! ## The rows of the tables -/

/-- The `mask` column of R95, R96 and spec/opcode_table.json. -/
def Instr.rowMask : Instr → Word
  | .cls | .ret | .scr | .scl | .exit | .low | .high => 0xFFFF
  | .scd _ => 0xFFF0
  | .jp _ | .call _ | .seImm _ _ | .sneImm _ _ | .ldImm _ _ | .addImm _ _ | .ldI _ | .jpOffset _
  | .rnd _ _ | .drw _ _ _ => 0xF000
  | .seReg _ _ | .ldReg _ _ | .orReg _ _ | .andReg _ _ | .xorReg _ _ | .addReg _ _ | .subReg _ _
  | .shr _ _ | .subnReg _ _ | .shl _ _ | .sneReg _ _ | .drw0 _ _ => 0xF00F
  | .skp _ | .sknp _ | .ldVxDt _ | .ldVxK _ | .ldDtVx _ | .ldStVx _ | .addI _ | .ldF _ | .ldB _
  | .storeRegs _ | .loadRegs _ | .ldHf _ | .saveFlags _ | .loadFlags _ => 0xF0FF

/-- The `match` column of R95, R96 and spec/opcode_table.json. -/
def Instr.rowBits : Instr → Word
  | .cls => 0x00E0
  | .ret => 0x00EE
  | .jp _ => 0x1000
  | .call _ => 0x2000
  | .seImm _ _ => 0x3000
  | .sneImm _ _ => 0x4000
  | .seReg _ _ => 0x5000
  | .ldImm _ _ => 0x6000
  | .addImm _ _ => 0x7000
  | .ldReg _ _ => 0x8000
  | .orReg _ _ => 0x8001
  | .andReg _ _ => 0x8002
  | .xorReg _ _ => 0x8003
  | .addReg _ _ => 0x8004
  | .subReg _ _ => 0x8005
  | .shr _ _ => 0x8006
  | .subnReg _ _ => 0x8007
  | .shl _ _ => 0x800E
  | .sneReg _ _ => 0x9000
  | .ldI _ => 0xA000
  | .jpOffset _ => 0xB000
  | .rnd _ _ => 0xC000
  | .drw _ _ _ => 0xD000
  | .drw0 _ _ => 0xD000
  | .skp _ => 0xE09E
  | .sknp _ => 0xE0A1
  | .ldVxDt _ => 0xF007
  | .ldVxK _ => 0xF00A
  | .ldDtVx _ => 0xF015
  | .ldStVx _ => 0xF018
  | .addI _ => 0xF01E
  | .ldF _ => 0xF029
  | .ldB _ => 0xF033
  | .storeRegs _ => 0xF055
  | .loadRegs _ => 0xF065
  | .scd _ => 0x00C0
  | .scr => 0x00FB
  | .scl => 0x00FC
  | .exit => 0x00FD
  | .low => 0x00FE
  | .high => 0x00FF
  | .ldHf _ => 0xF030
  | .saveFlags _ => 0xF075
  | .loadFlags _ => 0xF085

/-! ## The host's question: what the decoder reads from a table word -/

/-- The instruction the decoder reads from a word of the opcode table. The word is laid out as memory
holds it, high byte first (R64). The decoder is that of `Extended`, which reads every word of both
tables (R94: the tables do not overlap). Every instruction has 16 bits (R90), so a wider one is no row. -/
def decodeTableWord (nbits w : Nat) : Option Instr :=
  if 16 < nbits then none else
  match decodeBytes .extended [BitVec.ofNat 8 (w / 256), BitVec.ofNat 8 w] with
  | .instr i _ => some i
  | .illegal _ | .truncated => none

end Sys2Proof
end

