-- ==== Sys2Proof/Machine/State.lean ====
section
/-! DEFINITION. The state of the machine, the reasons a step can stop, and the state after reset:
10_state R20-R39 and 40_engine R120, R121, R127. Plain data. -/

namespace Sys2Proof.Machine

/-- A fault. The spec has none that stops the machine: its three error outcomes latch in `status` and
the run goes on as an inert machine (R331, R334, R339), so each of them is a next state. No constructor:
no meaning and no command of the model ever answers a fault. -/
inductive Fault where
  deriving DecidableEq, Repr

/-- Why a step is refused. -/
inductive Refusal where
  /-- Raised by an arm of `exec` whose instruction has no meaning yet. Safe: nothing is claimed. -/
  | notModelled (mnemonic : String)
  /-- Raised by a load command while `started = 1` (R69: the block refuses it and the model gives it no
  transition). Safe: a claim about such a launch says nothing. -/
  | loadAfterStart
  /-- Raised by LOAD_FONT or LOAD_BIG_FONT with a blob of the wrong length (R69). Safe. -/
  | fontLength (len : Nat)
  /-- Raised by LOAD_BIG_FONT when `variant = Classic` (R69). Safe. -/
  | bigFontInClassic
  /-- Raised by LOAD_PROGRAM with more than 3584 bytes (R69). Safe. -/
  | programLength (len : Nat)
  deriving DecidableEq, Repr

/-- `status.code` (R34). -/
inductive StatusCode where
  | running
  | stackOverflow
  | illegalInstruction
  | programExited
  deriving DecidableEq, Repr

/-- `status` (R34): the run-state register. `info` is the offending word when the code is
ILLEGAL_INSTRUCTION, and 0 otherwise. -/
structure Status where
  code : StatusCode
  info : Word
  deriving DecidableEq, Repr

/-- Memory (R37, R60): the listed (address, byte) pairs; every other address reads 0x00, the value the
spec gives all of memory at reset (R39). `Memory.wf` (Machine/Ops.lean) is its canonical form. -/
abbrev Memory := List Host.Cell

/-- The display buffer (R30): the lit cells as (column, row) pairs, in row-major order; every other cell
is unlit. `FrameBuffer.wf` (Machine/Ops.lean) is its canonical form (log entry 3). -/
abbrev FrameBuffer := List (Nat × Nat)

/-- The state. The fields down to `mem` are the spec's (10_state R20-R37, one field each, but that `sp`
is the length of `stack`); then the ports of the command in progress (R120, R121, R127); then the model's
own two fields. -/
@[ext]
structure State where
  /-- `variant` (R20) -/
  variant : Variant
  /-- `V0`-`VF` (R21) -/
  v : Vector Byte 16
  /-- `pc` (R23, R24) -/
  pc : Word
  /-- `I` (R26) -/
  i : Word
  /-- the valid stack entries, `stack[0]` first; `sp` is their number (R27; log entry 2) -/
  stack : List Word
  /-- `DT` (R29) -/
  dt : Byte
  /-- `ST` (R29) -/
  st : Byte
  /-- `FB` (R30) -/
  fb : FrameBuffer
  /-- `high_res` (R31) -/
  highRes : Bool
  /-- `latch` (R32) -/
  latch : Word
  /-- `UF[0..16)` (R33) -/
  uf : Vector Byte 16
  /-- `status` (R34) -/
  status : Status
  /-- `started` (R35) -/
  started : Bool
  /-- `M[0..4096)` (R37) -/
  mem : Memory
  /-- the input `keys` of the current STEP (R121) -/
  keys : Word
  /-- the input `rnd` of the current STEP (R121) -/
  rnd : Byte
  /-- the output `updated` of the last STEP (R126, R127) -/
  updated : Bool
  /-- MODEL'S OWN: the host's next commands where they are named, oldest first; after them the host's choice
  is free (R120, R352, R357; log entries 5, 6) -/
  pending : List Command
  /-- MODEL'S OWN: how many free host choices have been drawn (R121, R352, R357; log entry 6) -/
  draws : Nat
  deriving DecidableEq, Repr

/-- `sp` (R27): the number of valid stack entries. -/
def State.sp (s : State) : Nat := s.stack.length

/-- The state a RESET(variant) leaves (R39, R370), with an empty schedule. The fields after `mem` are no
state of the spec (log entries 4, 5, 6). -/
def State.resetFor (var : Variant) : State where
  variant := var
  v := Vector.replicate 16 0
  pc := 0x200
  i := 0
  stack := []
  dt := 0
  st := 0
  fb := []
  highRes := false
  latch := 0
  uf := Vector.replicate 16 0
  status := ⟨.running, 0⟩
  started := false
  mem := []
  keys := 0
  rnd := 0
  updated := false
  pending := []
  draws := 0

/-- The machine right after reset. The spec leaves the variant to the host (R10); this is RESET(Extended),
whose tables hold every instruction (log entry 1). -/
def State.reset : State := State.resetFor .extended

end Sys2Proof.Machine
end

