-- ==== Sys2Proof/Machine/Ops.lean ====
section
/-! DEFINITION. The named operations over memory, display buffer, registers and status: the primitives
of 00_scope R13, with 20_memory R63, 10_state R24, R28, 30_encoding R94, 40_engine R123, R130, R131 and
60_exceptions R331. Raising an error is ONE operation (`State.raise`); the spec has no return from an
error (R340). -/

namespace Sys2Proof.Machine

/-! ## Sizes (R8, R9) -/

/-- Memory has 4096 bytes (R8). -/
abbrev memorySize : Nat := 4096
/-- Depth of the call stack (R8, R27). -/
abbrev stackDepth : Nat := 16
/-- Program load address and restart vector (R8, R28). -/
abbrev programBase : Nat := 0x200
/-- Most bytes LOAD_PROGRAM takes (R69). -/
abbrev programLimit : Nat := 3584
/-- Small font: base, bytes of a glyph, bytes of the blob (R8, R11). -/
abbrev smallFontBase : Nat := 0x050
abbrev smallGlyphSize : Nat := 5
abbrev smallFontSize : Nat := 80
/-- Big font: base, bytes of a glyph, bytes of the blob (R8, R11). -/
abbrev bigFontBase : Nat := 0x0A0
abbrev bigGlyphSize : Nat := 10
abbrev bigFontSize : Nat := 160
/-- `SCROLL_H_HIRES` (R9): buffer columns moved by 00FB/00FC when `high_res = 1`. -/
abbrev scrollHHires : Nat := 4
/-- `SCROLL_H_LOWRES` (R9): buffer columns moved by 00FB/00FC when `high_res = 0`. -/
abbrev scrollHLowres : Nat := 8

/-! ## Memory (R60-R67) -/

/-- What an address that memory does not list reads as: 0x00, since memory is zeroed at reset (R39, R61). -/
abbrev Memory.unlisted : Byte := 0

/-- The byte at an address. -/
def Memory.read : Memory → Nat → Byte
  | [], _ => Memory.unlisted
  | c :: m, a => if c.1 = a then c.2 else Memory.read m a

/-- Without the entries of one address. -/
def Memory.erase (m : Memory) (a : Nat) : Memory := m.filter (fun c => c.1 != a)

/-- An entry put before the first one with a larger address. -/
def Memory.insert : Memory → Nat → Byte → Memory
  | [], a, b => [(a, b)]
  | c :: m, a, b => if a < c.1 then (a, b) :: c :: m else c :: Memory.insert m a b

/-- One byte written; writing what an unlisted address reads as removes the entry. -/
def Memory.write (m : Memory) (a : Nat) (b : Byte) : Memory :=
  if b = Memory.unlisted then m.erase a else (Memory.erase m a).insert a b

/-- The canonical form: addresses strictly rising, inside the address space, no entry equal to what an
unlisted address reads as. -/
abbrev Memory.wf (m : Memory) : Prop :=
  m.Pairwise (fun c d => c.1 < d.1) ∧ ∀ c ∈ m, c.1 < memorySize ∧ c.2 ≠ Memory.unlisted

/-- `MemRead(a, 1)` (R63): the address is reduced modulo 4096. -/
def State.readByte (s : State) (a : Nat) : Byte := Memory.read s.mem (a % memorySize)

/-- `MemRead(a, 2)` (R63, R64): big-endian, each byte's address reduced on its own. -/
def State.readWord (s : State) (a : Nat) : Word := joinBytes (s.readByte a) (s.readByte (a + 1))

/-- `MemWrite(a, 1, b)` (R63). -/
def State.writeByte (s : State) (a : Nat) (b : Byte) : State :=
  { s with mem := Memory.write s.mem (a % memorySize) b }

/-- Bytes written one by one at ascending addresses (R67), each address reduced on its own (R63). -/
def State.writeBytes (s : State) (a : Nat) : List Byte → State
  | [] => s
  | b :: bs => State.writeBytes (s.writeByte a b) (a + 1) bs

/-! ## Registers (R13, R21, R24, R26, R33) -/

/-- `V[x]` -/
def State.getV (s : State) (x : Nibble) : Byte := s.v[x.toNat]'x.isLt
/-- `V[x] <- b` -/
def State.setV (s : State) (x : Nibble) (b : Byte) : State :=
  { s with v := s.v.set x.toNat b x.isLt }
/-- `UF[x]` (R33) -/
def State.getUf (s : State) (x : Nibble) : Byte := s.uf[x.toNat]'x.isLt
/-- `pc <- t`: the value is stored modulo 4096 (R24). -/
def State.setPc (s : State) (t : Word) : State := { s with pc := t % 4096 }
/-- `I <- t`: 16 bits (R26). -/
def State.setI (s : State) (t : Word) : State := { s with i := t }
/-- `DT <- b` (R29) -/
def State.setDt (s : State) (b : Byte) : State := { s with dt := b }
/-- `ST <- b` (R29) -/
def State.setSt (s : State) (b : Byte) : State := { s with st := b }
/-- `high_res <- b` (R31) -/
def State.setHighRes (s : State) (b : Bool) : State := { s with highRes := b }
/-- `latch <- m` (R32) -/
def State.setLatch (s : State) (m : Word) : State := { s with latch := m }

/-- Entries `0 .. k-1` of a bank of 16 written from a function, in ascending order. -/
def writeBank (bank : Vector Byte 16) (f : Nat → Byte) : Nat → Vector Byte 16
  | 0 => bank
  | k + 1 => (writeBank bank f k).setIfInBounds k (f k)

/-- `V[k] <- f k` for `k` in `0 .. x` inclusive (R236, R238). -/
def State.setVUpTo (s : State) (x : Nibble) (f : Nat → Byte) : State :=
  { s with v := writeBank s.v f (x.toNat + 1) }

/-- `UF[k] <- f k` for `k` in `0 .. x` inclusive (R237). -/
def State.setUfUpTo (s : State) (x : Nibble) (f : Nat → Byte) : State :=
  { s with uf := writeBank s.uf f (x.toNat + 1) }

/-- `VF`: register 15, the flag output (R22). -/
abbrev vf : Nibble := 15

/-! ## The call stack (R28) -/

/-- `Push(v)`: `none` where the spec raises StackOverflow (nothing written). -/
def State.push (s : State) (r : Word) : Option State :=
  if s.sp < stackDepth then some { s with stack := s.stack ++ [r] } else none

/-- `Pop()`: the top entry and the state without it; 0x200, and nothing popped, where the stack is empty. -/
def State.pop (s : State) : Word × State :=
  match s.stack.getLast? with
  | none => (BitVec.ofNat 16 programBase, s)
  | some r => (r, { s with stack := s.stack.dropLast })

/-! ## Errors (R330-R335): taking the exception the spec describes -/

/-- The outcomes the core raises (R330). -/
inductive ErrorKind where
  | stackOverflow
  | illegalInstruction (w : Word)
  | programExited
  deriving DecidableEq, Repr

/-- `code(E)` and `info` of an outcome (R330). -/
def ErrorKind.status : ErrorKind → Status
  | .stackOverflow => ⟨.stackOverflow, 0⟩
  | .illegalInstruction w => ⟨.illegalInstruction, w⟩
  | .programExited => ⟨.programExited, 0⟩

/-- The numeric `status.code` (R34, R330). -/
def StatusCode.toBits : StatusCode → BitVec 2
  | .running => 0
  | .stackOverflow => 1
  | .illegalInstruction => 2
  | .programExited => 3

/-- `raise E(info)` (R331, R128): `status` is written and the STEP returns `updated = 0`; nothing else is
written. The core has no handler to enter and no return (R339, R340). -/
def State.raise (s : State) (e : ErrorKind) : State :=
  { s with status := e.status, updated := false }

/-- The effect of an instruction of the second table (R96): in `Classic` its word is illegal, and each
of its rules says that it is IllegalInstruction(w) there. -/
def State.extendedOnly (s : State) (w : Word) (t : State) : State :=
  match s.variant with
  | .extended => t
  | .classic => s.raise (.illegalInstruction w)

/-! ## Control (R123, R159) -/

/-- `Skip()` (R159): `pc` moves 2 further, modulo 4096. -/
def State.skip (s : State) : State := s.setPc (s.pc + 2)

/-- `if c then Skip()` -/
def State.skipIf (s : State) (c : Bool) : State := if c then s.skip else s

/-- The word the fetch reads (R123): the bytes at `pc` and `pc + 1`, big-endian. -/
def State.fetchWord (s : State) : Word := s.readWord s.pc.toNat

/-- What the fetch writes (R123): `started <- 1` and `pc <- pc + 2`. -/
def State.fetchAdvance (s : State) : State :=
  State.setPc { s with started := true } (s.pc + 2)

/-! ## The quirk mux (R130) and the other effects of `variant` (R131) -/

/-- The quirk record (R130). -/
structure Quirk where
  /-- 8xy1, 8xy2 and 8xy3 write `VF <- 0` afterwards -/
  logicClearsVf : Bool
  /-- 8xy6 and 8xyE shift `Vy` (true) or `Vx` (false) -/
  shiftReadsVy : Bool
  /-- Bnnn adds `Vx` (true) or `V0` (false) -/
  jumpOffsetVx : Bool
  /-- Fx55 and Fx65 post-increment `I` by x+1 -/
  ldstIncrementsI : Bool
  deriving DecidableEq, Repr

/-- `Quirk(variant)` (R130). -/
def quirk : Variant → Quirk
  | .classic => ⟨true, true, false, true⟩
  | .extended => ⟨false, false, true, false⟩

/-- The quirk record of the instance (R130). -/
def State.q (s : State) : Quirk := quirk s.variant

/-- `W`: columns of the display buffer (R30). -/
def displayWidth : Variant → Nat
  | .classic => 64
  | .extended => 128

/-- `H`: rows of the display buffer (R30). -/
def displayHeight : Variant → Nat
  | .classic => 32
  | .extended => 64

/-! ## The display buffer (R30) -/

/-- `FB(c, r)` -/
def FrameBuffer.lit (fb : FrameBuffer) (c r : Nat) : Bool := fb.contains (c, r)

/-- Row-major order of cells. -/
abbrev FrameBuffer.before (p q : Nat × Nat) : Prop := p.2 < q.2 ∨ (p.2 = q.2 ∧ p.1 < q.1)

/-- A cell put before the first one that comes after it in row-major order. -/
def FrameBuffer.insert : FrameBuffer → Nat × Nat → FrameBuffer
  | [], p => [p]
  | q :: fb, p => if FrameBuffer.before p q then p :: q :: fb else q :: FrameBuffer.insert fb p

/-- `FB(c, r) <- 1 - FB(c, r)` (R270). -/
def FrameBuffer.flip (fb : FrameBuffer) (c r : Nat) : FrameBuffer :=
  if FrameBuffer.lit fb c r then fb.filter (fun q => q != (c, r)) else FrameBuffer.insert fb (c, r)

/-- Every cell moved `k` columns right in a buffer `w` columns wide; the left columns are unlit (R264). -/
def FrameBuffer.scrollRight (fb : FrameBuffer) (k w : Nat) : FrameBuffer :=
  (fb.map (fun p => (p.1 + k, p.2))).filter (fun p => decide (p.1 < w))

/-- Every cell moved `k` columns left in a buffer `w` columns wide; the right columns are unlit (R265). -/
def FrameBuffer.scrollLeft (fb : FrameBuffer) (k w : Nat) : FrameBuffer :=
  (fb.filter (fun p => decide (k ≤ p.1 ∧ p.1 < w))).map (fun p => (p.1 - k, p.2))

/-- Every cell moved `d` rows down in a buffer `h` rows high; the top rows are unlit (R266). -/
def FrameBuffer.scrollDown (fb : FrameBuffer) (d h : Nat) : FrameBuffer :=
  (fb.map (fun p => (p.1, p.2 + d))).filter (fun p => decide (p.2 < h))

/-- The canonical form: cells in row-major order without repeats, inside a `w` by `h` buffer (R30). -/
abbrev FrameBuffer.wf (w h : Nat) (fb : FrameBuffer) : Prop :=
  fb.Pairwise FrameBuffer.before ∧ ∀ p ∈ fb, p.1 < w ∧ p.2 < h

/-- `FB <- fb ; updated <- 1` (R127, R260-R266). -/
def State.setDisplay (s : State) (fb : FrameBuffer) : State := { s with fb := fb, updated := true }

end Sys2Proof.Machine
end

