-- ==== Sys2Proof/Machine/Flags.lean ====
section
/-! DEFINITION. The flag computations, each the byte an instruction writes to `VF` (10_state R22), and the
flag-last write order of 42_alu R180. -/

namespace Sys2Proof.Machine

/-- A condition as a flag byte. -/
def flagByte (c : Bool) : Byte := if c then 1 else 0

/-- Carry of 8xy4 (R187): 1 if the unwrapped sum exceeds 255. -/
def carryFlag (a b : Byte) : Byte := flagByte (decide (255 < a.toNat + b.toNat))

/-- No-borrow of `a - b` (R188, R190): 1 if `a ≥ b`. -/
def noBorrowFlag (a b : Byte) : Byte := flagByte (decide (b.toNat ≤ a.toNat))

/-- The bit a right shift pushes out (R189): `a AND 1`. -/
def shiftedOutRight (a : Byte) : Byte := a &&& 1

/-- The bit a left shift pushes out (R191): `a >> 7`. -/
def shiftedOutLeft (a : Byte) : Byte := a >>> 7

/-- `VF` of a draw (R261): the collision bit plus the number of clipped rows counted. -/
def spriteFlag (hit : Bool) (clipped : Nat) : Byte := BitVec.ofNat 8 ((if hit then 1 else 0) + clipped)

/-- `V[x] <- r`, and last `VF <- f` (R180). -/
def State.setResultFlag (s : State) (x : Nibble) (r f : Byte) : State := (s.setV x r).setV vf f

/-- `V[x] <- r`, and last `VF <- 0` where `Q.logic_clears_vf = 1` (R184-R186). -/
def State.setLogicResult (s : State) (x : Nibble) (r : Byte) : State :=
  if s.q.logicClearsVf then s.setResultFlag x r 0 else s.setV x r

end Sys2Proof.Machine
end

