-- ==== Sys2Proof/Machine/Operands.lean ====
section
/-! DEFINITION. The operand forms of the instructions: registers selected by a quirk bit, key indices,
glyph addresses, decimal digits, and the bytes at `I` (40_engine R130; 41-45). -/

namespace Sys2Proof.Machine

/-- The source of a shift (R189, R191): `Vy` or `Vx`, by `Q.shift_reads_vy`. -/
def State.shiftSource (s : State) (x y : Nibble) : Byte :=
  if s.q.shiftReadsVy then s.getV y else s.getV x

/-- The offset register of Bnnn (R157): `Vx` with `x = nnn[11:8]`, or `V0`, by `Q.jump_offset_vx`. -/
def State.jumpOffset (s : State) (nnn : Addr) : Byte :=
  if s.q.jumpOffsetVx then s.getV (nnn.extractLsb' 8 4) else s.getV 0

/-- A 12-bit address zero-extended to 16 bits (R93). -/
def addrWord (nnn : Addr) : Word := nnn.setWidth 16

/-- A byte zero-extended to 16 bits (R93). -/
def byteWord (b : Byte) : Word := b.setWidth 16

/-- The low nibble of a byte: `b AND 0xF` (R232, R233, R302). -/
def lowNibble (b : Byte) : Nat := (b &&& 0xF).toNat

/-- `key k is held` with `k = V[x] AND 0xF` (R302): `keys[k] = 1`. -/
def State.keyHeld (s : State) (x : Nibble) : Bool := s.keys.getLsbD (lowNibble (s.getV x))

/-- `lowbit(m)` (R13): the index of the lowest set bit of a non-zero 16-bit mask. -/
def lowbit (m : Word) : Nat := ((List.range 16).find? (fun k => m.getLsbD k)).getD 0

/-- The address of a small-font glyph (R232): `0x050 + (b AND 0xF) * 5`. -/
def smallGlyphAddr (b : Byte) : Word :=
  BitVec.ofNat 16 (smallFontBase + lowNibble b * smallGlyphSize)

/-- The address of a big-font glyph (R233): `0x0A0 + (b AND 0xF) * 10`. -/
def bigGlyphAddr (b : Byte) : Word :=
  BitVec.ofNat 16 (bigFontBase + lowNibble b * bigGlyphSize)

/-- The decimal digits of a byte, hundreds first (R234). -/
def bcdDigits (b : Byte) : List Byte :=
  [BitVec.ofNat 8 (b.toNat / 100), BitVec.ofNat 8 (b.toNat / 10 % 10), BitVec.ofNat 8 (b.toNat % 10)]

/-- `V[0] .. V[x]` (R235). -/
def State.firstRegs (s : State) (x : Nibble) : List Byte :=
  (List.range (x.toNat + 1)).map (fun k => s.getV (BitVec.ofNat 4 k))

/-- The post-increment of Fx55 and Fx65 (R235, R236): `I <- I + x + 1` where `Q.ldst_increments_i = 1`. -/
def State.postIncrementI (s : State) (x : Nibble) : State :=
  if s.q.ldstIncrementsI then s.setI (s.i + BitVec.ofNat 16 (x.toNat + 1)) else s

end Sys2Proof.Machine
end

