-- ==== Sys2Proof/Machine/Control.lean ====
section
/-! DEFINITION. Control transfer and program exit: spec 41_control_flow. Each meaning runs after the
fetch, so `pc` is the instruction's address plus 2 (R123, R125). -/

namespace Sys2Proof.Machine

/-- RET `00EE` (R150): `pc <- Pop()`. -/
def execRet (s : State) : Host.Outcome State Fault Refusal := .next (s.pop.2.setPc s.pop.1)

/-- JP `1nnn` (R151): `pc <- nnn`. -/
def execJp (nnn : Addr) (s : State) : Host.Outcome State Fault Refusal := .next (s.setPc (addrWord nnn))

/-- CALL `2nnn` (R152): `Push(pc)`, then `pc <- nnn`; StackOverflow, with nothing written, at `sp = 16`. -/
def execCall (nnn : Addr) (s : State) : Host.Outcome State Fault Refusal :=
  match s.push s.pc with
  | some t => .next (t.setPc (addrWord nnn))
  | none => .next (s.raise .stackOverflow)

/-- SE `3xnn` (R153): skip if `V[x] = nn`. -/
def execSeImm (x : Nibble) (nn : Byte) (s : State) : Host.Outcome State Fault Refusal :=
  .next (s.skipIf (s.getV x == nn))

/-- SNE `4xnn` (R154): skip if `V[x] ≠ nn`. -/
def execSneImm (x : Nibble) (nn : Byte) (s : State) : Host.Outcome State Fault Refusal :=
  .next (s.skipIf (s.getV x != nn))

/-- SE `5xy0` (R155): skip if `V[x] = V[y]`. -/
def execSeReg (x y : Nibble) (s : State) : Host.Outcome State Fault Refusal :=
  .next (s.skipIf (s.getV x == s.getV y))

/-- SNE `9xy0` (R156): skip if `V[x] ≠ V[y]`. -/
def execSneReg (x y : Nibble) (s : State) : Host.Outcome State Fault Refusal :=
  .next (s.skipIf (s.getV x != s.getV y))

/-- JP V0 `Bnnn` (R157): `pc <- nnn + V[r]`, modulo 4096. -/
def execJpOffset (nnn : Addr) (s : State) : Host.Outcome State Fault Refusal :=
  .next (s.setPc (addrWord nnn + byteWord (s.jumpOffset nnn)))

/-- EXIT `00FD` (R158, R333), Extended only: `raise ProgramExited()`. -/
def execExit (s : State) : Host.Outcome State Fault Refusal :=
  .next (s.extendedOnly (encode .exit) (s.raise .programExited))

end Sys2Proof.Machine
end

