-- ==== Sys2Proof/Machine/Display.lean ====
section
/-! DEFINITION. Display, sprite blitter and collision detector: spec 44_display. -/

namespace Sys2Proof.Machine

/-! ## The blitter (R261-R263, R269, R270) -/

/-- The logical grid (R269): `lw × lh` logical pixels of `scale × scale` buffer cells. -/
structure Geometry where
  lw : Nat
  lh : Nat
  scale : Nat
  deriving DecidableEq, Repr

/-- `Geometry()` (R269). -/
def State.geometry (s : State) : Geometry :=
  match s.variant, s.highRes with
  | .classic, _ => ⟨64, 32, 1⟩
  | .extended, true => ⟨128, 64, 1⟩
  | .extended, false => ⟨64, 32, 2⟩

/-- A sprite about to be drawn (R261): its start in logical pixels, after the start has wrapped, its size,
and its rows of bits, of which bit `width-1` is the leftmost pixel. -/
structure Sprite where
  cx : Nat
  cy : Nat
  width : Nat
  rows : List Word
  deriving DecidableEq, Repr

/-- The 16×16 form applies (R261, R263): `variant = Extended`, `high_res = 1` and `n = 0`. -/
def State.bigSprite (s : State) (n : Nibble) : Bool := s.variant == .extended && s.highRes && n == 0

/-- Row `r` of the sprite at `I`: one byte (R262), or two bytes big-endian in the 16×16 form (R263). -/
def State.spriteRow (s : State) (big : Bool) (r : Nat) : Word :=
  if big then s.readWord (s.i.toNat + 2 * r) else byteWord (s.readByte (s.i.toNat + r))

/-- The sprite of Dxyn (R261): the start is `V[x]`, `V[y]` modulo the logical grid. -/
def State.sprite (s : State) (x y n : Nibble) : Sprite where
  cx := (s.getV x).toNat % s.geometry.lw
  cy := (s.getV y).toNat % s.geometry.lh
  width := if s.bigSprite n then 16 else 8
  rows := (List.range (if s.bigSprite n then 16 else n.toNat)).map (s.spriteRow (s.bigSprite n))

/-- The buffer cells of one logical pixel, row by row (R269, R270). -/
def Geometry.block (g : Geometry) (lx ly : Nat) : List (Nat × Nat) :=
  (List.range g.scale).flatMap fun dy =>
    (List.range g.scale).map fun dx => (g.scale * lx + dx, g.scale * ly + dy)

/-- The buffer cells that row `r` of a sprite flips, in the order of R261: nothing for a row below the
bottom edge; a pixel past the right edge is dropped. -/
def Sprite.rowCells (p : Sprite) (g : Geometry) (r : Nat) (bits : Word) : List (Nat × Nat) :=
  if p.cy + r < g.lh then
    (List.range p.width).flatMap fun c =>
      if bits.getLsbD (p.width - 1 - c) && decide (p.cx + c < g.lw) then g.block (p.cx + c) (p.cy + r)
      else []
  else []

/-- The buffer cells a draw flips, in the order of R261. -/
def Sprite.cells (p : Sprite) (g : Geometry) : List (Nat × Nat) :=
  (List.range p.rows.length).flatMap fun r => p.rowCells g r (p.rows.getD r 0)

/-- The rows of the sprite below the bottom edge (R261). -/
def Sprite.rowsBelow (p : Sprite) (g : Geometry) : Nat :=
  (List.range p.rows.length).countP fun r => decide (g.lh ≤ p.cy + r)

/-- What drawing works on: the buffer and the collision bit. -/
structure Blit where
  fb : FrameBuffer
  hit : Bool
  deriving DecidableEq, Repr

/-- One cell of Plot (R270): the collision bit takes in the old cell, then the cell is flipped. -/
def Blit.plotCell (b : Blit) (p : Nat × Nat) : Blit where
  fb := FrameBuffer.flip b.fb p.1 p.2
  hit := b.hit || FrameBuffer.lit b.fb p.1 p.2

/-- The cells plotted one after another, from `hit = 0`. -/
def plotCells (fb : FrameBuffer) (cells : List (Nat × Nat)) : Blit :=
  cells.foldl Blit.plotCell ⟨fb, false⟩

/-- Rows counted in `VF` (R261): those below the bottom edge, in `Extended` only. -/
def State.clippedRows (s : State) (p : Sprite) : Nat :=
  match s.variant with
  | .extended => p.rowsBelow s.geometry
  | .classic => 0

/-- Dxyn, every form (R261): the sprite is XOR-drawn, `updated <- 1`, and last `VF <- hit + clipped`. -/
def State.draw (s : State) (x y n : Nibble) : State :=
  let p := s.sprite x y n
  let b := plotCells s.fb (p.cells s.geometry)
  (s.setDisplay b.fb).setV vf (spriteFlag b.hit (s.clippedRows p))

/-- The horizontal scroll amount (R9, R264, R265). -/
def State.scrollColumns (s : State) : Nat := if s.highRes then scrollHHires else scrollHLowres

/-- The vertical scroll amount (R266): doubled in low resolution. -/
def State.scrollRows (s : State) (n : Nibble) : Nat := if s.highRes then n.toNat else 2 * n.toNat

/-! ## The instructions -/

/-- CLS `00E0` (R260): every cell unlit. -/
def execCls (s : State) : Host.Outcome State Fault Refusal := .next (s.setDisplay [])

/-- DRW `Dxyn` (R261, R262). -/
def execDrw (x y n : Nibble) (s : State) : Host.Outcome State Fault Refusal := .next (s.draw x y n)

/-- DRW `Dxy0` (R261, R263): 16×16 in `Extended` high-res, zero rows elsewhere. -/
def execDrw0 (x y : Nibble) (s : State) : Host.Outcome State Fault Refusal := .next (s.draw x y 0)

/-- SCR `00FB` (R264), Extended only. -/
def execScr (s : State) : Host.Outcome State Fault Refusal :=
  .next (s.extendedOnly (encode .scr)
    (s.setDisplay (FrameBuffer.scrollRight s.fb s.scrollColumns (displayWidth s.variant))))

/-- SCL `00FC` (R265), Extended only. -/
def execScl (s : State) : Host.Outcome State Fault Refusal :=
  .next (s.extendedOnly (encode .scl)
    (s.setDisplay (FrameBuffer.scrollLeft s.fb s.scrollColumns (displayWidth s.variant))))

/-- SCD `00Cn` (R266), Extended only. -/
def execScd (n : Nibble) (s : State) : Host.Outcome State Fault Refusal :=
  .next (s.extendedOnly (encode (.scd n))
    (s.setDisplay (FrameBuffer.scrollDown s.fb (s.scrollRows n) (displayHeight s.variant))))

/-- LOW `00FE` (R267), Extended only: `high_res <- 0`; `FB` and `updated` stay. -/
def execLow (s : State) : Host.Outcome State Fault Refusal :=
  .next (s.extendedOnly (encode .low) (s.setHighRes false))

/-- HIGH `00FF` (R268), Extended only: `high_res <- 1`; `FB` and `updated` stay. -/
def execHigh (s : State) : Host.Outcome State Fault Refusal :=
  .next (s.extendedOnly (encode .high) (s.setHighRes true))

end Sys2Proof.Machine
end

