-- ==== Sys2Proof/Machine/IndexMemory.lean ====
section
/-! DEFINITION. Index register, memory and user-flag instructions: spec 43_index_memory. Every memory
address is reduced modulo 4096 (R63); every write to `I` is modulo 65536 (R26). -/

namespace Sys2Proof.Machine

/-- LD I `Annn` (R230): `I <- nnn`. -/
def execLdI (nnn : Addr) (s : State) : Host.Outcome State Fault Refusal := .next (s.setI (addrWord nnn))

/-- ADD I `Fx1E` (R231): `I <- I + V[x]` modulo 65536, no flag. -/
def execAddI (x : Nibble) (s : State) : Host.Outcome State Fault Refusal :=
  .next (s.setI (s.i + byteWord (s.getV x)))

/-- LD F `Fx29` (R232): `I` points at a small-font glyph. -/
def execLdF (x : Nibble) (s : State) : Host.Outcome State Fault Refusal :=
  .next (s.setI (smallGlyphAddr (s.getV x)))

/-- LD HF `Fx30` (R233), Extended only: `I` points at a big-font glyph. -/
def execLdHf (x : Nibble) (s : State) : Host.Outcome State Fault Refusal :=
  .next (s.extendedOnly (encode (.ldHf x)) (s.setI (bigGlyphAddr (s.getV x))))

/-- LD B `Fx33` (R234): the decimal digits of `V[x]` at `I`, `I+1`, `I+2`. -/
def execLdB (x : Nibble) (s : State) : Host.Outcome State Fault Refusal :=
  .next (s.writeBytes s.i.toNat (bcdDigits (s.getV x)))

/-- LD [I] `Fx55` (R235): `V[0] .. V[x]` stored at `I`; in `Classic`, `I` moves past them. -/
def execStoreRegs (x : Nibble) (s : State) : Host.Outcome State Fault Refusal :=
  .next ((s.writeBytes s.i.toNat (s.firstRegs x)).postIncrementI x)

/-- LD Vx, [I] `Fx65` (R236): `V[0] .. V[x]` loaded from `I`; in `Classic`, `I` moves past them. -/
def execLoadRegs (x : Nibble) (s : State) : Host.Outcome State Fault Refusal :=
  .next ((s.setVUpTo x (fun k => s.readByte (s.i.toNat + k))).postIncrementI x)

/-- LD R `Fx75` (R237), Extended only: `V[0] .. V[x]` saved to the user flags. -/
def execSaveFlags (x : Nibble) (s : State) : Host.Outcome State Fault Refusal :=
  .next (s.extendedOnly (encode (.saveFlags x)) (s.setUfUpTo x (fun k => s.getV (BitVec.ofNat 4 k))))

/-- LD Vx, R `Fx85` (R238), Extended only: `V[0] .. V[x]` restored from the user flags. -/
def execLoadFlags (x : Nibble) (s : State) : Host.Outcome State Fault Refusal :=
  .next (s.extendedOnly (encode (.loadFlags x)) (s.setVUpTo x (fun k => s.getUf (BitVec.ofNat 4 k))))

end Sys2Proof.Machine
end

