-- ==== Sys2Proof/Machine/KeysTimers.lean ====
section
/-! DEFINITION. Keypad and timer instructions: spec 45_keys_timers. `s.keys` is the input of the current
STEP (R121). -/

namespace Sys2Proof.Machine

/-- SKP `Ex9E` (R300): skip if key `V[x] AND 0xF` is held. -/
def execSkp (x : Nibble) (s : State) : Host.Outcome State Fault Refusal := .next (s.skipIf (s.keyHeld x))

/-- SKNP `ExA1` (R301): skip if key `V[x] AND 0xF` is not held. -/
def execSknp (x : Nibble) (s : State) : Host.Outcome State Fault Refusal := .next (s.skipIf (!s.keyHeld x))

/-- LD Vx, K `Fx0A` (R304): on a numeric decrease of the mask, `V[x]` is the lowest key of those held at
the last poll and not held now, and the latch is cleared; otherwise the latch takes the mask and `pc` goes
back to this instruction. -/
def execLdVxK (x : Nibble) (s : State) : Host.Outcome State Fault Refusal :=
  .next (if s.keys < s.latch
    then (s.setV x (BitVec.ofNat 8 (lowbit (s.latch &&& ~~~s.keys)))).setLatch 0
    else (s.setLatch s.keys).setPc (s.pc - 2))

/-- LD Vx, DT `Fx07` (R306). -/
def execLdVxDt (x : Nibble) (s : State) : Host.Outcome State Fault Refusal := .next (s.setV x s.dt)

/-- LD DT, Vx `Fx15` (R307). -/
def execLdDtVx (x : Nibble) (s : State) : Host.Outcome State Fault Refusal := .next (s.setDt (s.getV x))

/-- LD ST, Vx `Fx18` (R308). -/
def execLdStVx (x : Nibble) (s : State) : Host.Outcome State Fault Refusal := .next (s.setSt (s.getV x))

end Sys2Proof.Machine
end

