-- ==== Sys2Proof/Machine/Commands.lean ====
section
/-! DEFINITION. The commands of the block (40_engine R120): RESET, the three loads, TIMER_TICK, and the
STEP cycle (R122-R129). -/

namespace Sys2Proof.Machine

/-! ## RESET, the loads and TIMER_TICK -/

/-- RESET(variant) (R370, R371): the state of R39, whatever was there. The host's schedule and the count
of free draws are no state of the block and stay. -/
def State.runReset (s : State) (v : Variant) : State :=
  { State.resetFor v with pending := s.pending, draws := s.draws }

/-- LOAD_FONT (R68, R69): 80 bytes at 0x050, while `started = 0`. -/
def State.runLoadFont (s : State) (bytes : List Byte) : Host.Outcome State Fault Refusal :=
  if s.started then .refused .loadAfterStart
  else if bytes.length = smallFontSize then .next (s.writeBytes smallFontBase bytes)
  else .refused (.fontLength bytes.length)

/-- LOAD_BIG_FONT (R68, R69): 160 bytes at 0x0A0, in `Extended`, while `started = 0`. -/
def State.runLoadBigFont (s : State) (bytes : List Byte) : Host.Outcome State Fault Refusal :=
  if s.started then .refused .loadAfterStart
  else if s.variant = .classic then .refused .bigFontInClassic
  else if bytes.length = bigFontSize then .next (s.writeBytes bigFontBase bytes)
  else .refused (.fontLength bytes.length)

/-- LOAD_PROGRAM (R68, R69): at most 3584 bytes at 0x200, while `started = 0`. -/
def State.runLoadProgram (s : State) (bytes : List Byte) : Host.Outcome State Fault Refusal :=
  if s.started then .refused .loadAfterStart
  else if bytes.length ≤ programLimit then .next (s.writeBytes programBase bytes)
  else .refused (.programLength bytes.length)

/-- A timer counted down once, never below zero (R29, R350). -/
def countDown (b : Byte) : Byte := if b = 0 then 0 else b - 1

/-- TIMER_TICK (R350): both timers count down; it reads and writes nothing else. -/
def State.runTimerTick (s : State) : State := { s with dt := countDown s.dt, st := countDown s.st }

/-! ## STEP (R129) -/

/-- The inputs sampled, and `updated <- 0` (R121, R127). -/
def State.sampleInputs (s : State) (keys : Word) (rnd : Byte) : State :=
  { s with keys := keys, rnd := rnd, updated := false }

/-- STEP(keys, rnd) (R122-R129). Latched: nothing changes, and `updated = 0` is returned. Running: fetch
and advance, decode with the variant, then execute, or raise IllegalInstruction(w). -/
def State.runStep (s : State) (keys : Word) (rnd : Byte) : Host.Outcome State Fault Refusal :=
  match s.status.code with
  | .running =>
    match decodeWord s.variant s.fetchWord with
    | some i => exec i (s.sampleInputs keys rnd).fetchAdvance
    | none => .next ((s.sampleInputs keys rnd).fetchAdvance.raise (.illegalInstruction s.fetchWord))
  | .stackOverflow | .illegalInstruction | .programExited => .next { s with updated := false }

/-! ## The schedule -/

/-- One command run. -/
def State.runCommand (s : State) : Command → Host.Outcome State Fault Refusal
  | .reset v => .next (s.runReset v)
  | .loadFont bytes => s.runLoadFont bytes
  | .loadBigFont bytes => s.runLoadBigFont bytes
  | .loadProgram bytes => s.runLoadProgram bytes
  | .step keys rnd => s.runStep keys rnd
  | .timerTick => .next s.runTimerTick

/-- The next command the host issues, and the state with it taken: the oldest of the schedule; where the
schedule names none, any command whatever, a free choice (R121, R352, R357; log entries 5, 6). -/
def State.nextCommand (s : State) : Command × State :=
  match s.pending with
  | c :: cs => (c, { s with pending := cs })
  | [] => (Config.freeCommand s.draws, { s with draws := s.draws + 1 })

/-- The next command issued and run. -/
def State.runNext (s : State) : Host.Outcome State Fault Refusal :=
  s.nextCommand.2.runCommand s.nextCommand.1

/-! ## Placing a word for the next fetch -/

/-- A state whose next command is a STEP: a STEP with freely drawn inputs comes before the schedule, unless
its first command is a STEP (R121; log entries 5, 6). -/
def State.stepNext (s : State) : State :=
  match s.pending with
  | .step _ _ :: _ => s
  | cs => { s with
      pending := .step (Config.freeKeys s.draws) (Config.freeRnd s.draws) :: cs, draws := s.draws + 1 }

/-- A word placed where the fetch of the next STEP reads it, high byte at `pc` (R64, R123), in a running
machine whose next command is a STEP. -/
def State.placeWord (s : State) (w : Word) : State :=
  State.writeBytes { s.stepNext with status := ⟨.running, 0⟩ } s.pc.toNat
    [w.extractLsb' 8 8, w.extractLsb' 0 8]

end Sys2Proof.Machine
end

