-- ==== Sys2Proof/Machine/Step.lean ====
section
/-! DEFINITION. One step of the machine: one command of the host (40_engine R120), the oldest of the schedule or,
where the schedule names none, any command (60_exceptions R352, R357); a STEP is one instruction. -/

namespace Sys2Proof.Machine

/-- One step. -/
def step (s : State) : Host.Outcome State Fault Refusal := s.runNext

/-- `s` with a word placed so that the very next step fetches and runs it. Every instruction has 16 bits
(R90), so `nbits` adds nothing to the word. -/
def State.withFetchWord (s : State) (_nbits w : Nat) : State := s.placeWord (BitVec.ofNat 16 w)

end Sys2Proof.Machine
end

