-- ==== Sys2Proof/WellFormed.lean ====
section
/-! DEFINITION. Which terms of Instr stand for a word, and in which variant: 30_encoding R96, R97, R99.
The fields carry their widths in their types (R93), so two checks remain. -/

namespace Sys2Proof

/-- The term is the reading of exactly one word. The one check: `Dxyn` with `n = 0` is written
`drw0` (R96: the 16×16 form is the row with `n = 0`; log entry 7), so `drw` carries `n ≠ 0`. -/
def Instr.wellFormed : Instr → Bool
  | .drw _ _ n => n != 0
  | .cls | .ret | .jp _ | .call _ | .seImm _ _ | .sneImm _ _ | .seReg _ _ | .ldImm _ _
  | .addImm _ _ | .ldReg _ _ | .orReg _ _ | .andReg _ _ | .xorReg _ _ | .addReg _ _
  | .subReg _ _ | .shr _ _ | .subnReg _ _ | .shl _ _ | .sneReg _ _ | .ldI _ | .jpOffset _
  | .rnd _ _ | .drw0 _ _ | .skp _ | .sknp _ | .ldVxDt _ | .ldVxK _ | .ldDtVx _ | .ldStVx _
  | .addI _ | .ldF _ | .ldB _ | .storeRegs _ | .loadRegs _ | .scd _ | .scr | .scl | .exit
  | .low | .high | .ldHf _ | .saveFlags _ | .loadFlags _ => true

/-- The instruction is legal in the variant (R95, R96): the second table is consulted in `Extended` only. -/
def Instr.legalIn (v : Variant) (i : Instr) : Bool :=
  i.wellFormed && (v == .extended || !i.extendedOnly)

end Sys2Proof
end

