-- ==== Sys2Proof/Safety.lean ====
section
/-! DEFINITION. What counts as a safe run, the invariants, and the other terms claims are stated in. -/

namespace Sys2Proof.Machine

/-! ## Faulted states and safe runs (60_exceptions R333, R334) -/

/-- `status.code` is one of the two faults; PROGRAM_EXITED is a normal end (R333). -/
def State.faulted (s : State) : Bool :=
  match s.status.code with
  | .stackOverflow | .illegalInstruction => true
  | .running | .programExited => false

/-- No fault at any point of the next `k` commands, none of which the block refuses (R334, R357). -/
def SafeRun : Nat → State → Prop
  | 0, s => s.faulted = false
  | k + 1, s => s.faulted = false ∧ ∃ t, step s = .next t ∧ SafeRun k t

/-! ## Invariants -/

/-- The invariants of R38 (`pc` in range, `sp` at most 16, the display buffer inside the size of the
variant, `high_res` only in `Extended`), with the canonical forms of the model's data, `info` as R34 says,
and an error only in a started machine (R35, R331). -/
def State.Inv (s : State) : Prop :=
  s.pc.toNat < 4096 ∧ s.sp ≤ 16 ∧ Memory.wf s.mem ∧
  FrameBuffer.wf (displayWidth s.variant) (displayHeight s.variant) s.fb ∧
  (s.highRes = true → s.variant = .extended) ∧
  (s.status.code ≠ .illegalInstruction → s.status.info = 0) ∧
  (s.status.code ≠ .running → s.started = true)

/-- The latch is 0 whenever no key wait is in progress (R305): where it is not 0, the machine runs, has
started, and the word at `pc` is an Fx0A. -/
def State.KeyWaitInv (s : State) : Prop :=
  s.latch ≠ 0 → s.started = true ∧ s.status.code = .running ∧
    ∃ x, decodeWord s.variant s.fetchWord = some (.ldVxK x)

/-! ## Terms of claims about one instruction -/

/-- The instruction's word matches a row (`w AND mask = bits`, R95, R96), both decoders read it back where
it is legal, and `Classic` refuses it where it belongs to the second table. -/
def Encoded (i : Instr) (bits mask : Word) : Prop :=
  encode i &&& mask = bits ∧ decodeWord .extended (encode i) = some i ∧
    decodeWord .classic (encode i) = if i.extendedOnly then none else some i

/-- In `Classic` the instruction is IllegalInstruction(w) with its own word, and does nothing else. -/
def IllegalInClassic (i : Instr) (w : Word) : Prop :=
  ∀ s : State, s.variant = .classic →
    exec i s = .next { s with status := ⟨.illegalInstruction, w⟩, updated := false }

/-- Every byte of memory reads as before. -/
def SameBytes (s t : State) : Prop := ∀ a, t.readByte a = s.readByte a

/-- At most the listed general registers differ: every other register, every other field and every byte of
memory is as before. -/
def OnlyRegisters (dst : List Nibble) (s t : State) : Prop :=
  t = { s with v := t.v } ∧ (∀ k, k ∉ dst → t.getV k = s.getV k) ∧ SameBytes s t

/-- At most `pc` differs. -/
def OnlyPc (s t : State) : Prop := t = { s with pc := t.pc } ∧ SameBytes s t

/-- At most `I` differs. -/
def OnlyIndex (s t : State) : Prop := t = { s with i := t.i } ∧ SameBytes s t

/-- At most the display buffer and `updated` differ, and `updated` is set (R127). -/
def OnlyDisplay (s t : State) : Prop := t = { s with fb := t.fb, updated := true } ∧ SameBytes s t

/-- The bytes stand at `base`, `base + 1`, … modulo 4096, and every other byte is as before. -/
def WroteBytes (base : Nat) (bytes : List Byte) (s t : State) : Prop :=
  (∀ k b, bytes[k]? = some b → t.readByte (base + k) = b) ∧
    ∀ a, (∀ k < bytes.length, a % 4096 ≠ (base + k) % 4096) → t.readByte a = s.readByte a

/-- The general registers an instruction may write (R22 and the rules of 41-45): its destination, and `VF`
where it has a flag in the variant. -/
def mayWriteV (v : Variant) : Instr → Nibble → Bool
  | .ldImm x _, k | .addImm x _, k | .ldReg x _, k | .rnd x _, k | .ldVxDt x, k | .ldVxK x, k => k == x
  | .orReg x _, k | .andReg x _, k | .xorReg x _, k => k == x || (v == .classic && k == 15)
  | .addReg x _, k | .subReg x _, k | .shr x _, k | .subnReg x _, k | .shl x _, k => k == x || k == 15
  | .drw _ _ _, k | .drw0 _ _, k => k == 15
  | .loadRegs x, k | .loadFlags x, k => decide (k ≤ x)
  | .cls, _ | .ret, _ | .jp _, _ | .call _, _ | .seImm _ _, _ | .sneImm _ _, _ | .seReg _ _, _
  | .sneReg _ _, _ | .ldI _, _ | .jpOffset _, _ | .skp _, _ | .sknp _, _ | .ldDtVx _, _ | .ldStVx _, _
  | .addI _, _ | .ldF _, _ | .ldB _, _ | .storeRegs _, _ | .scd _, _ | .scr, _ | .scl, _ | .exit, _
  | .low, _ | .high, _ | .ldHf _, _ | .saveFlags _, _ => false

/-! ## Terms of claims about drawing (44_display R261-R263) -/

/-- The cell lies under a set pixel of a sprite that starts at logical pixel `(cx, cy)`: its logical pixel
is on the grid and in the sprite, and `pixel row column`, counted from the sprite's top left, is 1. -/
def spriteCovers (g : Geometry) (cx cy width rows : Nat) (pixel : Nat → Nat → Bool) (c r : Nat) : Prop :=
  cx ≤ c / g.scale ∧ c / g.scale < cx + width ∧ c / g.scale < g.lw ∧
  cy ≤ r / g.scale ∧ r / g.scale < cy + rows ∧ r / g.scale < g.lh ∧
  pixel (r / g.scale - cy) (c / g.scale - cx) = true

/-- `t` is `s` after a sprite has been XOR-drawn (R261): each covered cell is turned over and no other;
`VF` is the collision bit plus, in `Extended`, the rows below the bottom edge; `updated` is 1. -/
def DrewSprite (s t : State) (cx cy width rows : Nat) (pixel : Nat → Nat → Bool) : Prop :=
  (∀ c r, spriteCovers s.geometry cx cy width rows pixel c r →
    FrameBuffer.lit t.fb c r = !FrameBuffer.lit s.fb c r) ∧
  (∀ c r, ¬ spriteCovers s.geometry cx cy width rows pixel c r →
    FrameBuffer.lit t.fb c r = FrameBuffer.lit s.fb c r) ∧
  ((∃ c r, spriteCovers s.geometry cx cy width rows pixel c r ∧ FrameBuffer.lit s.fb c r = true) →
    (t.getV 15).toNat = 1 + (if s.variant = .extended then cy + rows - s.geometry.lh else 0)) ∧
  (¬ (∃ c r, spriteCovers s.geometry cx cy width rows pixel c r ∧ FrameBuffer.lit s.fb c r = true) →
    (t.getV 15).toNat = if s.variant = .extended then cy + rows - s.geometry.lh else 0) ∧
  (∀ k, k ≠ 15 → t.getV k = s.getV k) ∧
  t = { s with fb := t.fb, v := t.v, updated := true } ∧ SameBytes s t

end Sys2Proof.Machine
end

