-- ==== Sys2Proof/Certificates/Slice0/Obligations.lean ====
section
/-! DEFINITION. The statements for the provers. Each docstring names the rules of spec/ it formalises.
In a statement about `exec`, `s` is the state the fetch left, so `pc` is the instruction's address plus 2
(40_engine R125). A statement about `State.runCommand` is about one command of the block (R120). -/

open Sys2Proof Sys2Proof.Machine

/-! ## Reset and invariants -/

/-- R39: the value of every piece of state after RESET(variant), for both variants, and that the RESET
command gives them from any state (R370, R371). -/
def Obligations.ResetGivesEveryFieldItsSpecValue : Prop :=
  ∀ (s : State) (var : Variant), ∃ t, s.runCommand (.reset var) = .next t ∧
    t.variant = var ∧ (∀ a, t.readByte a = 0) ∧ (∀ x, t.getV x = 0) ∧ t.i = 0 ∧ t.pc = 0x200 ∧ t.sp = 0 ∧
    t.dt = 0 ∧ t.st = 0 ∧ (∀ c r, FrameBuffer.lit t.fb c r = false) ∧ t.highRes = false ∧ t.latch = 0 ∧
    (∀ x, t.getUf x = 0) ∧ t.status = ⟨.running, 0⟩ ∧ t.started = false ∧
    (displayWidth t.variant, displayHeight t.variant) =
      (match var with | .classic => (64, 32) | .extended => (128, 64))

/-- R38 at reset: the invariants hold of the state after RESET of either variant, and of State.reset (which
is RESET(Extended) by the model's choice, log entry 1). -/
def Obligations.ResetSatisfiesTheInvariants : Prop :=
  (∀ var, (State.resetFor var).Inv ∧ (State.resetFor var).KeyWaitInv) ∧ State.reset.Inv ∧ State.reset.KeyWaitInv

/-- R38 (an inference of the spec from R24, R27, R30, R31), with the canonical forms of the model's memory
and buffer (log entries 3, 8): every step, of any command, keeps the invariants. The host's schedule is the
model's own field (log entry 5). -/
def Obligations.EveryStepKeepsTheInvariant : Prop :=
  ∀ s t : State, s.Inv → step s = .next t → t.Inv

/-- R305, first consequence (an inference of the spec): the latch is 0 whenever no Fx0A wait is in
progress. Every step of any command keeps it. -/
def Obligations.LatchIsZeroOutsideAKeyWait : Prop :=
  ∀ s t : State, s.Inv → s.KeyWaitInv → step s = .next t → t.KeyWaitInv

/-! ## Decoding -/

/-- R90-R96: the decoder reads back every legal instruction of either variant, from its word and from its
bytes in memory order, with every operand at every value. That every Dxy0 is one term, `drw0`, is the model's
choice (log entry 7). -/
def Obligations.DecodeEncodeRoundTrip : Prop :=
  ∀ (var : Variant) (i : Instr) (rest : List Byte), i.legalIn var = true →
    decodeWord var (encode i) = some i ∧ decodeBytes var (encodeBytes i ++ rest) = .instr i rest

/-- R94-R96: whatever word the decoder reads, the instruction is legal in the variant, the word matches the
instruction's row, and encoding the instruction gives the word back: no bit is dropped. -/
def Obligations.DecodedWordMatchesItsRowAndReencodes : Prop :=
  ∀ (var : Variant) (w : Word) (i : Instr), decodeWord var w = some i →
    i.legalIn var = true ∧ w &&& i.rowMask = i.rowBits ∧ encode i = w

/-- R99 (an inference of the spec from R94-R98): the illegal words are exactly the listed ones, in each
variant, and a STEP of a running machine that fetches one raises IllegalInstruction(w). -/
def Obligations.IllegalWordsAreExactlyTheListedOnes : Prop :=
  ∀ w : Word,
    let op := w.toNat / 4096
    let n := w.toNat % 16
    let nn := w.toNat % 256
    let common : Prop :=
      (op = 0 ∧ w ≠ 0x00E0 ∧ w ≠ 0x00EE) ∨ ((op = 5 ∨ op = 9) ∧ n ≠ 0) ∨
      (op = 8 ∧ n ∈ [0x8, 0x9, 0xA, 0xB, 0xC, 0xD, 0xF]) ∨ (op = 0xE ∧ nn ∉ [0x9E, 0xA1]) ∨
      (op = 0xF ∧ nn ∉ [0x07, 0x0A, 0x15, 0x18, 0x1E, 0x29, 0x33, 0x55, 0x65])
    let second : Prop :=
      (0x00C0 ≤ w.toNat ∧ w.toNat ≤ 0x00CF) ∨ (0x00FB ≤ w.toNat ∧ w.toNat ≤ 0x00FF) ∨
      (op = 0xF ∧ nn ∈ [0x30, 0x75, 0x85])
    (decodeWord .classic w = none ↔ common) ∧
    (decodeWord .extended w = none ↔ common ∧ ¬ second) ∧
    ∀ (s : State) (keys : Word) (rnd : Byte), s.status.code = .running → s.fetchWord = w →
      decodeWord s.variant w = none →
      ∃ t, s.runCommand (.step keys rnd) = .next t ∧ t.status = ⟨.illegalInstruction, w⟩

/-- A sanity check of a few words, one or more of each family of the table, and of three illegal ones, against
R95, R96 and R99. -/
def Obligations.SampleWordsDecode : Prop :=
  decodeWord .classic 0x00E0 = some .cls ∧ decodeWord .classic 0x2ABC = some (.call 0xABC) ∧
  decodeWord .classic 0x3A42 = some (.seImm 0xA 0x42) ∧ decodeWord .classic 0x812E = some (.shl 1 2) ∧
  decodeWord .classic 0xB310 = some (.jpOffset 0x310) ∧ decodeWord .classic 0xD125 = some (.drw 1 2 5) ∧
  decodeWord .classic 0xE7A1 = some (.sknp 7) ∧ decodeWord .classic 0xF365 = some (.loadRegs 3) ∧
  decodeWord .extended 0x00C5 = some (.scd 5) ∧ decodeWord .classic 0x00C5 = none ∧
  decodeWord .extended 0xF985 = some (.loadFlags 9) ∧ decodeWord .classic 0x01E0 = none ∧
  decodeWord .extended 0x00FA = none

/-! ## The engine and the commands -/

/-- A step runs the decoded instruction (R122, R123, R125, R129; the schedule is the model's, log entries 5
and 6). Where the next command is STEP(k, r), named by the schedule or, where it is empty, freely chosen by
the host: the word is the two bytes at `pc`, big-endian; the fetch sets `started` and moves `pc` by 2 modulo
4096; then the step is `exec` of the instruction the word decodes to, or the latch of
IllegalInstruction(w); and in a latched machine nothing changes. That a latched STEP keeps the ports `keys`
and `rnd` is the model's choice (log entry 4). -/
def Obligations.StepRunsTheDecodedInstruction : Prop :=
  ∀ (s s' : State) (keys : Word) (rnd : Byte),
    (s.pending = .step keys rnd :: s'.pending ∧ s' = { s with pending := s'.pending }) ∨
      (s.pending = [] ∧ Config.freeCommand s.draws = .step keys rnd ∧ s' = { s with draws := s.draws + 1 }) →
    s.fetchWord.toNat = (s.readByte s.pc.toNat).toNat * 256 + (s.readByte (s.pc.toNat + 1)).toNat ∧
    (s.status.code ≠ .running → step s = .next { s' with updated := false }) ∧
    (s.status.code = .running →
      ∃ f, f = { s' with keys := keys, rnd := rnd, updated := false, started := true, pc := f.pc } ∧
        f.pc.toNat = (s.pc.toNat + 2) % 4096 ∧
        (∀ i, decodeWord s.variant s.fetchWord = some i → step s = exec i f) ∧
        (decodeWord s.variant s.fetchWord = none →
          step s = .next { f with status := ⟨.illegalInstruction, s.fetchWord⟩ }))

/-- Every command of the schedule is run as it stands, in order, and where the schedule names none the host's
free choice is run, whichever command it is (R120, R352, R357; the schedule and the draw are the model's, log
entries 5 and 6). -/
def Obligations.StepRunsTheNextCommand : Prop :=
  ∀ s : State,
    (∀ (c : Command) (cs : List Command), s.pending = c :: cs →
      step s = State.runCommand { s with pending := cs } c) ∧
    (s.pending = [] → step s = State.runCommand { s with draws := s.draws + 1 } (Config.freeCommand s.draws))

/-- R122: a STEP in a latched machine changes no state and returns `updated = 0`. That the ports `keys` and
`rnd`, which are no state of the block, stay too is the model's choice (log entry 4). -/
def Obligations.StepInALatchedMachineChangesNothing : Prop :=
  ∀ (s : State) (keys : Word) (rnd : Byte), s.status.code ≠ .running →
    ∃ t, s.runCommand (.step keys rnd) = .next t ∧ t.updated = false ∧
      t = { s with updated := t.updated } ∧ SameBytes s t

/-- R334: over any number of steps without a RESET, the latch stays, and with it every piece of state but
the two timers (which TIMER_TICK still counts), the returned `updated` bit and the model's own fields (log
entries 5, 6); RESET clears it. The premises say that no RESET is in the schedule, nor among the free
commands that the `k` steps draw after it. `started` is set in every latched machine (Inv). That the ports `keys` and
`rnd` stay too is the model's choice (log entry 4). -/
def Obligations.ErrorLatchIsStickyUntilReset : Prop :=
  (∀ (k : Nat) (s t : State), s.status.code ≠ .running → s.started = true →
    (∀ var, Command.reset var ∉ s.pending) →
    (∀ n var, s.draws ≤ n → n < s.draws + (k - s.pending.length) → Config.freeCommand n ≠ .reset var) →
    Host.Core.run Sys2Proof.core k s = .next t →
    t = { s with dt := t.dt, st := t.st, updated := t.updated, pending := t.pending, draws := t.draws }) ∧
  (∀ (s : State) (var : Variant), ∃ t, s.runCommand (.reset var) = .next t ∧ t.status = ⟨.running, 0⟩)

/-- R10: the variant is taken at reset and no other command changes it. -/
def Obligations.VariantChangesOnlyAtReset : Prop :=
  ∀ (s t : State) (c : Command), s.runCommand c = .next t →
    t.variant = match c with | .reset var => var | _ => s.variant

/-- R121: only Ex9E, ExA1 and Fx0A read `keys`, and only Cxnn reads `rnd`. Every other instruction does
the same whatever those inputs are. -/
def Obligations.OnlyTheirInstructionsReadTheInputs : Prop :=
  ∀ (i : Instr) (s t : State), exec i s = .next t →
    (∀ keys : Word, (∀ x, i ≠ .skp x ∧ i ≠ .sknp x ∧ i ≠ .ldVxK x) →
      exec i { s with keys := keys } = .next { t with keys := keys }) ∧
    (∀ rnd : Byte, (∀ x nn, i ≠ .rnd x nn) → exec i { s with rnd := rnd } = .next { t with rnd := rnd })

/-- R127: a STEP returns `updated = 1` exactly when it runs 00E0, Dxyn, 00FB, 00FC or 00Cn; and it does the
same whatever `updated` was before it. -/
def Obligations.UpdatedBitIsSetByDisplayInstructions : Prop :=
  ∀ (s : State) (keys : Word) (rnd : Byte), ∃ t, s.runCommand (.step keys rnd) = .next t ∧
    (t.updated = true ↔ s.status.code = .running ∧ ∃ i, decodeWord s.variant s.fetchWord = some i ∧
      (i = .cls ∨ (∃ x y n, i = .drw x y n) ∨ (∃ x y, i = .drw0 x y) ∨ i = .scr ∨ i = .scl ∨
        ∃ n, i = .scd n)) ∧
    ∀ b, State.runCommand { s with updated := b } (.step keys rnd) = .next t

/-- R330: a STEP raises exactly three outcomes and no other: StackOverflow by 2nnn with a full stack,
IllegalInstruction(w) by a word with no row, ProgramExited by 00FD; with their codes and `info`, and which
of them are faults. The stack is full where `16 ≤ sp`: at `sp = 16`, the spec's case, and in states with more
entries, which no run reaches and where the overflow is the model's choice (log entry 2). -/
def Obligations.OnlyThreeOutcomesAreRaised : Prop :=
  StatusCode.toBits .running = 0 ∧ StatusCode.toBits .stackOverflow = 1 ∧
  StatusCode.toBits .illegalInstruction = 2 ∧ StatusCode.toBits .programExited = 3 ∧
  (∀ s : State, s.faulted = true ↔ s.status.code = .stackOverflow ∨ s.status.code = .illegalInstruction) ∧
  ∀ (s : State) (keys : Word) (rnd : Byte), ∃ t, s.runCommand (.step keys rnd) = .next t ∧
    (s.status.code ≠ .running → t.status = s.status) ∧
    (s.status.code = .running →
      (decodeWord s.variant s.fetchWord = none → t.status = ⟨.illegalInstruction, s.fetchWord⟩) ∧
      ∀ i, decodeWord s.variant s.fetchWord = some i →
        (((∃ nnn, i = .call nnn) ∧ 16 ≤ s.sp) → t.status = ⟨.stackOverflow, 0⟩) ∧
        (i = .exit → t.status = ⟨.programExited, 0⟩) ∧
        (¬ ((∃ nnn, i = .call nnn) ∧ 16 ≤ s.sp) → i ≠ .exit → t.status = s.status))

/-- R128: a STEP that raises leaves the state of the fetch (`pc` moved by 2 modulo 4096, `started`
set, `updated = 0`) with `status` written, and nothing else changed but the sampled inputs. -/
def Obligations.ErrorsWriteOnlyTheStatus : Prop :=
  ∀ (s t : State) (keys : Word) (rnd : Byte), s.status.code = .running →
    s.runCommand (.step keys rnd) = .next t → t.status.code ≠ .running →
    t.pc.toNat = (s.pc.toNat + 2) % 4096 ∧ SameBytes s t ∧
    t = { s with status := t.status, pc := t.pc, started := true, updated := false, keys := keys, rnd := rnd }

/-- R350: TIMER_TICK takes one from each timer that is not zero, in every machine, and does nothing else. -/
def Obligations.TimerTickCountsBothTimersDown : Prop :=
  ∀ s : State, ∃ t, s.runCommand .timerTick = .next t ∧
    (s.dt ≠ 0 → t.dt.toNat = s.dt.toNat - 1) ∧ (s.dt = 0 → t.dt = 0) ∧
    (s.st ≠ 0 → t.st.toNat = s.st.toNat - 1) ∧ (s.st = 0 → t.st = 0) ∧
    t = { s with dt := t.dt, st := t.st } ∧ SameBytes s t

/-- R68: each load command, before the first STEP, writes exactly its bytes at its region; none is allowed
after it; and TIMER_TICK, the host's other command that is no STEP and no RESET, writes no byte. -/
def Obligations.LoadsWriteExactlyTheirRegions : Prop :=
  ∀ (s : State) (bytes : List Byte),
    (s.started = false →
      (bytes.length = 80 → ∃ t, s.runCommand (.loadFont bytes) = .next t ∧
        WroteBytes 0x050 bytes s t ∧ t = { s with mem := t.mem }) ∧
      (s.variant = .extended → bytes.length = 160 → ∃ t, s.runCommand (.loadBigFont bytes) = .next t ∧
        WroteBytes 0x0A0 bytes s t ∧ t = { s with mem := t.mem }) ∧
      (bytes.length ≤ 3584 → ∃ t, s.runCommand (.loadProgram bytes) = .next t ∧
        WroteBytes 0x200 bytes s t ∧ t = { s with mem := t.mem })) ∧
    (s.started = true → ∀ c ∈ [Command.loadFont bytes, .loadBigFont bytes, .loadProgram bytes],
      ∃ r, s.runCommand c = .refused r) ∧
    (∀ t, s.runCommand .timerTick = .next t → SameBytes s t)

/-- R69: a load that breaks the protocol is refused: after the first STEP, too long, of the wrong length,
or a big font in `Classic`. -/
def Obligations.LoadsOutsideTheProtocolAreRefused : Prop :=
  ∀ (s : State) (bytes : List Byte),
    (s.started = true ∨ bytes.length ≠ 80 → ∃ r, s.runCommand (.loadFont bytes) = .refused r) ∧
    (s.started = true ∨ bytes.length ≠ 160 ∨ s.variant = .classic →
      ∃ r, s.runCommand (.loadBigFont bytes) = .refused r) ∧
    (s.started = true ∨ 3584 < bytes.length → ∃ r, s.runCommand (.loadProgram bytes) = .refused r)

/-- R73: a store is seen by the next fetch. After Fx55 with `I` at `pc` and at least two registers stored,
the next word fetched is `V0` and `V1`. -/
def Obligations.StoreIsSeenByTheNextFetch : Prop :=
  ∀ (s : State) (x : Nibble), 1 ≤ x.toNat → s.i.toNat % 4096 = s.pc.toNat % 4096 →
    ∃ t, exec (.storeRegs x) s = .next t ∧
      t.fetchWord.toNat = (s.getV 0).toNat * 256 + (s.getV 1).toNat

/-- R133: a jump to its own address parks the program. A STEP of it changes nothing but the ports, and
`started`, which the first STEP sets. -/
def Obligations.JumpToItselfParksTheProgram : Prop :=
  ∀ (s : State) (nnn : Addr) (keys : Word) (rnd : Byte), s.status.code = .running →
    s.pc.toNat = nnn.toNat → s.fetchWord = encode (.jp nnn) →
    s.runCommand (.step keys rnd) =
      .next { s with keys := keys, rnd := rnd, updated := false, started := true }

/-! ## Whole-machine rules about instructions -/

/-- R22: an instruction changes no general register but those its rule names, `VF` included. -/
def Obligations.OnlyNamedRegistersChange : Prop :=
  ∀ (i : Instr) (s t : State) (k : Nibble), exec i s = .next t → mayWriteV s.variant i k = false →
    t.getV k = s.getV k

/-- R24, R26, R27, R29, R31-R34, R60, R127: beside the general registers, no piece of state is written by an
instruction but those its rule names: each clause leaves out the writers of one piece and says that every
other instruction keeps it. That a writer writes is said by its own statement below. A call overflows where
`16 ≤ sp`, which takes in data the spec does not have (log entry 2). -/
def Obligations.EveryOtherPieceOfStateHasOnlyItsWriters : Prop :=
  ∀ (i : Instr) (s t : State), exec i s = .next t →
    ((∀ x, i ≠ .ldB x ∧ i ≠ .storeRegs x) → t.mem = s.mem ∧ SameBytes s t) ∧
    ((∀ nnn, i ≠ .ldI nnn) → (∀ x, i ≠ .addI x ∧ i ≠ .ldF x ∧ i ≠ .ldHf x) →
      (s.variant = .classic → ∀ x, i ≠ .storeRegs x ∧ i ≠ .loadRegs x) → t.i = s.i) ∧
    ((∀ x nn, i ≠ .seImm x nn ∧ i ≠ .sneImm x nn) → (∀ x y, i ≠ .seReg x y ∧ i ≠ .sneReg x y) →
      (∀ x, i ≠ .skp x ∧ i ≠ .sknp x ∧ i ≠ .ldVxK x) →
      (∀ nnn, i ≠ .jp nnn ∧ i ≠ .jpOffset nnn ∧ i ≠ .call nnn) → i ≠ .ret → t.pc = s.pc) ∧
    (i ≠ .ret → (∀ nnn, i ≠ .call nnn) → t.stack = s.stack) ∧
    ((∀ x, i ≠ .ldDtVx x) → t.dt = s.dt) ∧
    ((∀ x, i ≠ .ldStVx x) → t.st = s.st) ∧
    (i ≠ .cls → i ≠ .scr → i ≠ .scl → (∀ n, i ≠ .scd n) → (∀ x y, i ≠ .drw0 x y) →
      (∀ x y n, i ≠ .drw x y n) → t.fb = s.fb) ∧
    (i ≠ .low → i ≠ .high → t.highRes = s.highRes) ∧
    ((∀ x, i ≠ .ldVxK x) → t.latch = s.latch) ∧
    ((∀ x, i ≠ .saveFlags x) → t.uf = s.uf) ∧
    (i ≠ .exit → (∀ nnn, i = .call nnn → s.sp < 16) → (s.variant = .classic → i.extendedOnly = false) →
      t.status = s.status ∧
        (i ≠ .cls → i ≠ .scr → i ≠ .scl → (∀ n, i ≠ .scd n) → (∀ x y, i ≠ .drw0 x y) →
          (∀ x y n, i ≠ .drw x y n) → t.updated = s.updated)) ∧
    t.variant = s.variant ∧ t.started = s.started ∧ t.keys = s.keys ∧ t.rnd = s.rnd

/-! ## Control transfer (41_control_flow) -/

/-- R150: RET pops the top entry into `pc`, or goes to 0x200 where the stack is empty. -/
def Obligations.ReturnPopsOrRestarts : Prop :=
  ∀ s : State, Encoded .ret 0x00EE 0xFFFF ∧ ∃ t, exec .ret s = .next t ∧
    (s.stack = [] → t.pc = 0x200 ∧ t.stack = []) ∧
    (∀ rest r, s.stack = rest ++ [r] → t.pc.toNat = r.toNat % 4096 ∧ t.stack = rest) ∧
    t = { s with pc := t.pc, stack := t.stack } ∧ SameBytes s t

/-- R151: JP sets `pc` to the address. -/
def Obligations.JumpSetsThePc : Prop :=
  ∀ (s : State) (nnn : Addr), Encoded (.jp nnn) 0x1000 0xF000 ∧
    ∃ t, exec (.jp nnn) s = .next t ∧ t.pc.toNat = nnn.toNat ∧ OnlyPc s t

/-- R152: CALL pushes `pc` (its own address plus 2) on top and jumps; with 16 entries it raises
StackOverflow and writes nothing else. `16 ≤ sp` is the spec's `sp = 16` and, by the model's choice (log entry
2), the states with more entries, which no run reaches. -/
def Obligations.CallPushesAndJumpsOrOverflows : Prop :=
  ∀ (s : State) (nnn : Addr), Encoded (.call nnn) 0x2000 0xF000 ∧
    (s.sp < 16 → ∃ t, exec (.call nnn) s = .next t ∧ t.pc.toNat = nnn.toNat ∧
      t.stack = s.stack ++ [s.pc] ∧ t.sp = s.sp + 1 ∧
      t = { s with pc := t.pc, stack := t.stack } ∧ SameBytes s t) ∧
    (16 ≤ s.sp → exec (.call nnn) s = .next { s with status := ⟨.stackOverflow, 0⟩, updated := false })

/-- R153, R154: SE and SNE with an immediate skip two more bytes, modulo 4096, on equality and on
inequality. -/
def Obligations.SkipOnImmediate : Prop :=
  ∀ (s : State) (x : Nibble) (nn : Byte),
    (Encoded (.seImm x nn) 0x3000 0xF000 ∧ ∃ t, exec (.seImm x nn) s = .next t ∧
      (s.getV x = nn → t.pc.toNat = (s.pc.toNat + 2) % 4096) ∧ (s.getV x ≠ nn → t.pc = s.pc) ∧ OnlyPc s t) ∧
    (Encoded (.sneImm x nn) 0x4000 0xF000 ∧ ∃ t, exec (.sneImm x nn) s = .next t ∧
      (s.getV x ≠ nn → t.pc.toNat = (s.pc.toNat + 2) % 4096) ∧ (s.getV x = nn → t.pc = s.pc) ∧ OnlyPc s t)

/-- R155, R156: SE and SNE of two registers. -/
def Obligations.SkipOnRegisters : Prop :=
  ∀ (s : State) (x y : Nibble),
    (Encoded (.seReg x y) 0x5000 0xF00F ∧ ∃ t, exec (.seReg x y) s = .next t ∧
      (s.getV x = s.getV y → t.pc.toNat = (s.pc.toNat + 2) % 4096) ∧ (s.getV x ≠ s.getV y → t.pc = s.pc) ∧
      OnlyPc s t) ∧
    (Encoded (.sneReg x y) 0x9000 0xF00F ∧ ∃ t, exec (.sneReg x y) s = .next t ∧
      (s.getV x ≠ s.getV y → t.pc.toNat = (s.pc.toNat + 2) % 4096) ∧ (s.getV x = s.getV y → t.pc = s.pc) ∧
      OnlyPc s t)

/-- R157: Bnnn adds `V0` in `Classic`, and `Vx` with `x = nnn[11:8]` in `Extended`, modulo 4096. -/
def Obligations.JumpWithOffsetAddsTheVariantsRegister : Prop :=
  ∀ (s : State) (nnn : Addr), Encoded (.jpOffset nnn) 0xB000 0xF000 ∧
    ∃ t, exec (.jpOffset nnn) s = .next t ∧ OnlyPc s t ∧
      (s.variant = .classic → t.pc.toNat = (nnn.toNat + (s.getV 0).toNat) % 4096) ∧
      (s.variant = .extended →
        t.pc.toNat = (nnn.toNat + (s.getV (BitVec.ofNat 4 (nnn.toNat / 256))).toNat) % 4096)

/-- R158: 00FD raises ProgramExited, always, in `Extended`; in `Classic` it is illegal. -/
def Obligations.ExitLatchesProgramExited : Prop :=
  Encoded .exit 0x00FD 0xFFFF ∧ IllegalInClassic .exit 0x00FD ∧
  ∀ s : State, s.variant = .extended →
    exec .exit s = .next { s with status := ⟨.programExited, 0⟩, updated := false }

/-! ## Registers and arithmetic (42_alu) -/

/-- R181, R182: LD and ADD with an immediate; ADD wraps and writes no flag. -/
def Obligations.LoadAndAddImmediate : Prop :=
  ∀ (s : State) (x : Nibble) (nn : Byte),
    (Encoded (.ldImm x nn) 0x6000 0xF000 ∧ ∃ t, exec (.ldImm x nn) s = .next t ∧
      t.getV x = nn ∧ OnlyRegisters [x] s t) ∧
    (Encoded (.addImm x nn) 0x7000 0xF000 ∧ ∃ t, exec (.addImm x nn) s = .next t ∧
      (t.getV x).toNat = ((s.getV x).toNat + nn.toNat) % 256 ∧ OnlyRegisters [x] s t)

/-- R183: LD Vx, Vy copies. -/
def Obligations.CopyRegister : Prop :=
  ∀ (s : State) (x y : Nibble), Encoded (.ldReg x y) 0x8000 0xF00F ∧
    ∃ t, exec (.ldReg x y) s = .next t ∧ t.getV x = s.getV y ∧ OnlyRegisters [x] s t

/-- R184-R186: OR, AND and XOR, bit by bit; in `Classic` `VF` ends 0, in `Extended` it changes only as the
destination. -/
def Obligations.LogicOperationsAndTheClassicFlagClear : Prop :=
  ∀ (s : State) (x y : Nibble),
    Encoded (.orReg x y) 0x8001 0xF00F ∧ Encoded (.andReg x y) 0x8002 0xF00F ∧
    Encoded (.xorReg x y) 0x8003 0xF00F ∧
    ∀ (i : Instr) (bit : Bool → Bool → Bool),
      (i = .orReg x y ∧ bit = or) ∨ (i = .andReg x y ∧ bit = and) ∨ (i = .xorReg x y ∧ bit = xor) →
      ∃ t, exec i s = .next t ∧
        (s.variant = .classic → t.getV 15 = 0 ∧ OnlyRegisters [x, 15] s t) ∧
        (s.variant = .extended → OnlyRegisters [x] s t) ∧
        (s.variant = .extended ∨ x ≠ 15 →
          ∀ k < 8, (t.getV x).getLsbD k = bit ((s.getV x).getLsbD k) ((s.getV y).getLsbD k))

/-- R187: ADD Vx, Vy. `VF` is the carry and is written last, so with `x = 15` it holds the flag. -/
def Obligations.AddRegistersSetsCarry : Prop :=
  ∀ (s : State) (x y : Nibble), Encoded (.addReg x y) 0x8004 0xF00F ∧
    ∃ t, exec (.addReg x y) s = .next t ∧
      (t.getV 15).toNat = (if 255 < (s.getV x).toNat + (s.getV y).toNat then 1 else 0) ∧
      (x ≠ 15 → (t.getV x).toNat = ((s.getV x).toNat + (s.getV y).toNat) % 256) ∧
      OnlyRegisters [x, 15] s t

/-- R188, R190: SUB and SUBN. `VF` is no-borrow and is written last. -/
def Obligations.SubtractionsSetNoBorrow : Prop :=
  ∀ (s : State) (x y : Nibble),
    Encoded (.subReg x y) 0x8005 0xF00F ∧ Encoded (.subnReg x y) 0x8007 0xF00F ∧
    ∀ (i : Instr) (a b : Byte),
      (i = .subReg x y ∧ a = s.getV x ∧ b = s.getV y) ∨ (i = .subnReg x y ∧ a = s.getV y ∧ b = s.getV x) →
      ∃ t, exec i s = .next t ∧
        (t.getV 15).toNat = (if b.toNat ≤ a.toNat then 1 else 0) ∧
        (x ≠ 15 → (t.getV x).toNat = (a.toNat + 256 - b.toNat) % 256) ∧ OnlyRegisters [x, 15] s t

/-- R189, R191: SHR and SHL shift `Vy` in `Classic` and `Vx` in `Extended`, by one; `VF` is the bit shifted
out and is written last. -/
def Obligations.ShiftsCatchTheBitShiftedOut : Prop :=
  ∀ (s : State) (x y : Nibble) (a : Byte),
    a = (match s.variant with | .classic => s.getV y | .extended => s.getV x) →
    (Encoded (.shr x y) 0x8006 0xF00F ∧ ∃ t, exec (.shr x y) s = .next t ∧
      (t.getV 15).toNat = a.toNat % 2 ∧ (x ≠ 15 → (t.getV x).toNat = a.toNat / 2) ∧
      OnlyRegisters [x, 15] s t) ∧
    (Encoded (.shl x y) 0x800E 0xF00F ∧ ∃ t, exec (.shl x y) s = .next t ∧
      (t.getV 15).toNat = a.toNat / 128 ∧ (x ≠ 15 → (t.getV x).toNat = a.toNat * 2 % 256) ∧
      OnlyRegisters [x, 15] s t)

/-- R192: RND keeps the bits of `rnd` under the mask. -/
def Obligations.RandomByteUnderAMask : Prop :=
  ∀ (s : State) (x : Nibble) (nn : Byte), Encoded (.rnd x nn) 0xC000 0xF000 ∧
    ∃ t, exec (.rnd x nn) s = .next t ∧
      (∀ k < 8, (t.getV x).getLsbD k = (s.rnd.getLsbD k && nn.getLsbD k)) ∧ OnlyRegisters [x] s t

/-! ## Index register, memory, user flags (43_index_memory) -/

/-- R230, R231: Annn sets `I`; Fx1E adds `Vx` to it modulo 65536, with no flag. -/
def Obligations.SetAndAddToIndex : Prop :=
  (∀ (s : State) (nnn : Addr), Encoded (.ldI nnn) 0xA000 0xF000 ∧
    ∃ t, exec (.ldI nnn) s = .next t ∧ t.i.toNat = nnn.toNat ∧ OnlyIndex s t) ∧
  (∀ (s : State) (x : Nibble), Encoded (.addI x) 0xF01E 0xF0FF ∧
    ∃ t, exec (.addI x) s = .next t ∧ t.i.toNat = (s.i.toNat + (s.getV x).toNat) % 65536 ∧ OnlyIndex s t)

/-- R232, R233: Fx29 and Fx30 point `I` at the glyph of the low nibble; Fx30 is illegal in `Classic`. -/
def Obligations.GlyphAddresses : Prop :=
  ∀ (s : State) (x : Nibble),
    (Encoded (.ldF x) 0xF029 0xF0FF ∧ ∃ t, exec (.ldF x) s = .next t ∧
      t.i.toNat = 0x050 + (s.getV x).toNat % 16 * 5 ∧ OnlyIndex s t) ∧
    Encoded (.ldHf x) 0xF030 0xF0FF ∧ IllegalInClassic (.ldHf x) (encode (.ldHf x)) ∧
    (s.variant = .extended → ∃ t, exec (.ldHf x) s = .next t ∧
      t.i.toNat = 0x0A0 + (s.getV x).toNat % 16 * 10 ∧ OnlyIndex s t)

/-- R234: Fx33 stores the hundreds, tens and units of `Vx` at `I`, `I+1`, `I+2` modulo 4096. -/
def Obligations.DecimalDigitsAreStored : Prop :=
  ∀ (s : State) (x : Nibble), Encoded (.ldB x) 0xF033 0xF0FF ∧
    ∃ t d2 d1 d0, exec (.ldB x) s = .next t ∧ WroteBytes s.i.toNat [d2, d1, d0] s t ∧
      d2.toNat = (s.getV x).toNat / 100 ∧ d1.toNat = (s.getV x).toNat / 10 % 10 ∧
      d0.toNat = (s.getV x).toNat % 10 ∧ t = { s with mem := t.mem }

/-- R235: Fx55 stores `V0` to `Vx` at `I` and after, modulo 4096; `I` moves by x+1 in `Classic` only. -/
def Obligations.RegistersAreStoredAtIndex : Prop :=
  ∀ (s : State) (x : Nibble), Encoded (.storeRegs x) 0xF055 0xF0FF ∧
    ∃ t bytes, exec (.storeRegs x) s = .next t ∧ WroteBytes s.i.toNat bytes s t ∧
      bytes.length = x.toNat + 1 ∧ (∀ k, k ≤ x → bytes[k.toNat]? = some (s.getV k)) ∧
      (s.variant = .classic → t.i.toNat = (s.i.toNat + x.toNat + 1) % 65536) ∧
      (s.variant = .extended → t.i = s.i) ∧ t = { s with mem := t.mem, i := t.i }

/-- R236: Fx65 loads `V0` to `Vx` from `I` and after, modulo 4096; `I` moves by x+1 in `Classic` only. -/
def Obligations.RegistersAreLoadedFromIndex : Prop :=
  ∀ (s : State) (x : Nibble), Encoded (.loadRegs x) 0xF065 0xF0FF ∧
    ∃ t, exec (.loadRegs x) s = .next t ∧
      (∀ k, k ≤ x → t.getV k = s.readByte (s.i.toNat + k.toNat)) ∧ (∀ k, ¬ k ≤ x → t.getV k = s.getV k) ∧
      (s.variant = .classic → t.i.toNat = (s.i.toNat + x.toNat + 1) % 65536) ∧
      (s.variant = .extended → t.i = s.i) ∧ t = { s with v := t.v, i := t.i } ∧ SameBytes s t

/-- R236, corner cases: Fx55 and then Fx65 with the same `x` and the same `I` give every register back,
whatever the registers held in between. -/
def Obligations.StoreThenLoadGivesTheRegistersBack : Prop :=
  ∀ (s t : State) (x : Nibble) (between : Vector Byte 16), exec (.storeRegs x) s = .next t →
    ∃ u, exec (.loadRegs x) { t with v := between, i := s.i } = .next u ∧ ∀ k, k ≤ x → u.getV k = s.getV k

/-- R237, R238: Fx75 saves `V0` to `Vx` to the user flags and Fx85 restores them; both are illegal in
`Classic`. -/
def Obligations.UserFlagsSaveAndRestore : Prop :=
  ∀ (s : State) (x : Nibble),
    Encoded (.saveFlags x) 0xF075 0xF0FF ∧ IllegalInClassic (.saveFlags x) (encode (.saveFlags x)) ∧
    Encoded (.loadFlags x) 0xF085 0xF0FF ∧ IllegalInClassic (.loadFlags x) (encode (.loadFlags x)) ∧
    (s.variant = .extended →
      (∃ t, exec (.saveFlags x) s = .next t ∧ (∀ k, k ≤ x → t.getUf k = s.getV k) ∧
        (∀ k, ¬ k ≤ x → t.getUf k = s.getUf k) ∧ t = { s with uf := t.uf } ∧ SameBytes s t) ∧
      (∃ t, exec (.loadFlags x) s = .next t ∧ (∀ k, k ≤ x → t.getV k = s.getUf k) ∧
        (∀ k, ¬ k ≤ x → t.getV k = s.getV k) ∧ t = { s with v := t.v } ∧ SameBytes s t))

/-! ## Display (44_display) -/

/-- R269: the logical grid of each mode, and the buffer cells of a logical pixel. -/
def Obligations.LogicalGridOfEachMode : Prop :=
  ∀ s : State,
    (s.variant = .classic → s.geometry = ⟨64, 32, 1⟩) ∧
    (s.variant = .extended → s.highRes = true → s.geometry = ⟨128, 64, 1⟩) ∧
    (s.variant = .extended → s.highRes = false → s.geometry = ⟨64, 32, 2⟩) ∧
    ∀ lx ly c r, (c, r) ∈ s.geometry.block lx ly ↔
      ∃ dx dy, dx < s.geometry.scale ∧ dy < s.geometry.scale ∧
        c = s.geometry.scale * lx + dx ∧ r = s.geometry.scale * ly + dy

/-- R260: 00E0 clears every cell, in every mode, and leaves `high_res`. -/
def Obligations.ClearScreenUnlightsEveryCell : Prop :=
  ∀ s : State, Encoded .cls 0x00E0 0xFFFF ∧ ∃ t, exec .cls s = .next t ∧
    (∀ c r, FrameBuffer.lit t.fb c r = false) ∧ OnlyDisplay s t

/-- R261-R263: Dxyn XOR-draws, from the wrapped start, the 8-wide sprite of `n` rows at `I`, bit 7 leftmost;
Dxy0 in `Extended` high-res the 16×16 sprite of 32 bytes, the high byte of a row first and bit 15 leftmost;
and Dxy0 elsewhere no row: `VF` becomes 0 and `updated` 1. The coordinates are those before `VF` is written. That Dxy0 is a term of its own is the model's choice (log
entry 7). -/
def Obligations.DrawXorsTheSpriteOfEachForm : Prop :=
  ∀ (s : State) (x y : Nibble),
    (∀ n : Nibble, n ≠ 0 → Encoded (.drw x y n) 0xD000 0xF000 ∧ ∃ t, exec (.drw x y n) s = .next t ∧
      DrewSprite s t ((s.getV x).toNat % s.geometry.lw) ((s.getV y).toNat % s.geometry.lh) 8 n.toNat
        (fun row col => (s.readByte (s.i.toNat + row)).getLsbD (7 - col))) ∧
    Encoded (.drw0 x y) 0xD000 0xF00F ∧
    (s.variant = .extended → s.highRes = true → ∃ t, exec (.drw0 x y) s = .next t ∧
      DrewSprite s t ((s.getV x).toNat % 128) ((s.getV y).toNat % 64) 16 16
        (fun row col => if col < 8 then (s.readByte (s.i.toNat + 2 * row)).getLsbD (7 - col)
          else (s.readByte (s.i.toNat + 2 * row + 1)).getLsbD (15 - col))) ∧
    (s.variant = .classic ∨ s.highRes = false → ∃ t, exec (.drw0 x y) s = .next t ∧
      t.getV 15 = 0 ∧ (∀ k, k ≠ 15 → t.getV k = s.getV k) ∧
      t = { s with v := t.v, updated := true } ∧ SameBytes s t)

/-- 95_test_vectors W8, as 90:C9 qualifies it: the same draw twice gives the buffer back, and on the second
draw of a sprite, 8 or 16 wide, that is not clipped at the bottom `VF` is 1 if the first draw lit a cell. The
coordinates are not `VF`, which the first draw writes. That Dxy0 is a term of its own is the model's choice
(log entry 7). -/
def Obligations.DrawingTwiceGivesTheDisplayBack : Prop :=
  ∀ (s t u : State) (x y n : Nibble), s.Inv → x ≠ 15 → y ≠ 15 →
    (exec (.drw x y n) s = .next t → exec (.drw x y n) t = .next u →
      u.fb = s.fb ∧
      ((∃ c r, FrameBuffer.lit t.fb c r = true ∧ FrameBuffer.lit s.fb c r = false) → n ≠ 0 →
        s.variant = .classic ∨ (s.getV y).toNat % s.geometry.lh + n.toNat ≤ s.geometry.lh →
        u.getV 15 = 1)) ∧
    (exec (.drw0 x y) s = .next t → exec (.drw0 x y) t = .next u →
      u.fb = s.fb ∧
      ((∃ c r, FrameBuffer.lit t.fb c r = true ∧ FrameBuffer.lit s.fb c r = false) →
        s.variant = .extended → s.highRes = true → (s.getV y).toNat % 64 + 16 ≤ 64 → u.getV 15 = 1))

/-- R264, R265: the horizontal scrolls, 4 columns in high resolution and 8 in low; illegal in `Classic`. -/
def Obligations.HorizontalScrollsMoveColumns : Prop :=
  Encoded .scr 0x00FB 0xFFFF ∧ IllegalInClassic .scr 0x00FB ∧
  Encoded .scl 0x00FC 0xFFFF ∧ IllegalInClassic .scl 0x00FC ∧
  ∀ (s : State) (k : Nat), s.variant = .extended → k = (if s.highRes then 4 else 8) →
    (∃ t, exec .scr s = .next t ∧ OnlyDisplay s t ∧ ∀ c r, c < 128 → r < 64 →
      FrameBuffer.lit t.fb c r = if k ≤ c then FrameBuffer.lit s.fb (c - k) r else false) ∧
    (∃ t, exec .scl s = .next t ∧ OnlyDisplay s t ∧ ∀ c r, c < 128 → r < 64 →
      FrameBuffer.lit t.fb c r = if c + k < 128 then FrameBuffer.lit s.fb (c + k) r else false)

/-- R266: 00Cn scrolls down by `n` rows, doubled in low resolution; illegal in `Classic`. -/
def Obligations.VerticalScrollMovesRows : Prop :=
  ∀ (s : State) (n : Nibble), Encoded (.scd n) 0x00C0 0xFFF0 ∧ IllegalInClassic (.scd n) (encode (.scd n)) ∧
    (s.variant = .extended → ∃ t, exec (.scd n) s = .next t ∧ OnlyDisplay s t ∧
      ∀ c r d, c < 128 → r < 64 → d = (if s.highRes then n.toNat else 2 * n.toNat) →
        FrameBuffer.lit t.fb c r = if d ≤ r then FrameBuffer.lit s.fb c (r - d) else false)

/-- R267, R268: 00FE and 00FF select the resolution, and change nothing else; illegal in `Classic`. -/
def Obligations.LowAndHighSelectTheResolution : Prop :=
  Encoded .low 0x00FE 0xFFFF ∧ IllegalInClassic .low 0x00FE ∧
  Encoded .high 0x00FF 0xFFFF ∧ IllegalInClassic .high 0x00FF ∧
  ∀ s : State, s.variant = .extended →
    exec .low s = .next { s with highRes := false } ∧ exec .high s = .next { s with highRes := true }

/-! ## Keys and timers (45_keys_timers) -/

/-- R300-R302: SKP and SKNP test the key of the low nibble of `Vx`. -/
def Obligations.SkipOnKey : Prop :=
  ∀ (s : State) (x : Nibble) (held : Bool), held = s.keys.getLsbD ((s.getV x).toNat % 16) →
    (Encoded (.skp x) 0xE09E 0xF0FF ∧ ∃ t, exec (.skp x) s = .next t ∧
      (held = true → t.pc.toNat = (s.pc.toNat + 2) % 4096) ∧ (held = false → t.pc = s.pc) ∧ OnlyPc s t) ∧
    (Encoded (.sknp x) 0xE0A1 0xF0FF ∧ ∃ t, exec (.sknp x) s = .next t ∧
      (held = false → t.pc.toNat = (s.pc.toNat + 2) % 4096) ∧ (held = true → t.pc = s.pc) ∧ OnlyPc s t)

/-- R304: Fx0A. On a numeric decrease of the mask, `Vx` is the lowest key that was held at the last poll
and is not now, and the latch is cleared; otherwise the latch takes the mask and `pc` goes back by 2. -/
def Obligations.KeyWaitReportsTheLowestReleasedKey : Prop :=
  ∀ (s : State) (x : Nibble), Encoded (.ldVxK x) 0xF00A 0xF0FF ∧
    ∃ t, exec (.ldVxK x) s = .next t ∧ SameBytes s t ∧
      (s.keys.toNat < s.latch.toNat →
        (∃ k, k < 16 ∧ (t.getV x).toNat = k ∧
          s.latch.getLsbD k = true ∧ s.keys.getLsbD k = false ∧
          (∀ j, j < k → ¬ (s.latch.getLsbD j = true ∧ s.keys.getLsbD j = false))) ∧
        (∀ k, k ≠ x → t.getV k = s.getV k) ∧ t = { s with v := t.v, latch := 0 }) ∧
      (¬ s.keys.toNat < s.latch.toNat →
        t.pc.toNat = (s.pc.toNat + 65536 - 2) % 4096 ∧ t = { s with latch := s.keys, pc := t.pc })

/-- R306-R308: the delay timer is read, and both timers are set. -/
def Obligations.TimerRegistersAreReadAndSet : Prop :=
  ∀ (s : State) (x : Nibble),
    (Encoded (.ldVxDt x) 0xF007 0xF0FF ∧ ∃ t, exec (.ldVxDt x) s = .next t ∧
      t.getV x = s.dt ∧ OnlyRegisters [x] s t) ∧
    (Encoded (.ldDtVx x) 0xF015 0xF0FF ∧ exec (.ldDtVx x) s = .next { s with dt := s.getV x }) ∧
    (Encoded (.ldStVx x) 0xF018 0xF0FF ∧ exec (.ldStVx x) s = .next { s with st := s.getV x })
end

