-- ==== Sys2Proof/Laws/State.lean ====
section
/-! SUPPORT. For each update of the state, what each field is after it: one lemma per field per update,
true by rfl, so that no later proof unfolds a record update. -/

namespace Sys2Proof.Machine

variable (s : State)

/-! ## `State.setV` -/

@[simp] theorem State.setV_variant (x : Nibble) (b : Byte) : (s.setV x b).variant = s.variant := rfl
@[simp] theorem State.setV_v (x : Nibble) (b : Byte) : (s.setV x b).v = s.v.set x.toNat b x.isLt := rfl
@[simp] theorem State.setV_pc (x : Nibble) (b : Byte) : (s.setV x b).pc = s.pc := rfl
@[simp] theorem State.setV_i (x : Nibble) (b : Byte) : (s.setV x b).i = s.i := rfl
@[simp] theorem State.setV_stack (x : Nibble) (b : Byte) : (s.setV x b).stack = s.stack := rfl
@[simp] theorem State.setV_dt (x : Nibble) (b : Byte) : (s.setV x b).dt = s.dt := rfl
@[simp] theorem State.setV_st (x : Nibble) (b : Byte) : (s.setV x b).st = s.st := rfl
@[simp] theorem State.setV_fb (x : Nibble) (b : Byte) : (s.setV x b).fb = s.fb := rfl
@[simp] theorem State.setV_highRes (x : Nibble) (b : Byte) : (s.setV x b).highRes = s.highRes := rfl
@[simp] theorem State.setV_latch (x : Nibble) (b : Byte) : (s.setV x b).latch = s.latch := rfl
@[simp] theorem State.setV_uf (x : Nibble) (b : Byte) : (s.setV x b).uf = s.uf := rfl
@[simp] theorem State.setV_status (x : Nibble) (b : Byte) : (s.setV x b).status = s.status := rfl
@[simp] theorem State.setV_started (x : Nibble) (b : Byte) : (s.setV x b).started = s.started := rfl
@[simp] theorem State.setV_mem (x : Nibble) (b : Byte) : (s.setV x b).mem = s.mem := rfl
@[simp] theorem State.setV_keys (x : Nibble) (b : Byte) : (s.setV x b).keys = s.keys := rfl
@[simp] theorem State.setV_rnd (x : Nibble) (b : Byte) : (s.setV x b).rnd = s.rnd := rfl
@[simp] theorem State.setV_updated (x : Nibble) (b : Byte) : (s.setV x b).updated = s.updated := rfl
@[simp] theorem State.setV_pending (x : Nibble) (b : Byte) : (s.setV x b).pending = s.pending := rfl
@[simp] theorem State.setV_draws (x : Nibble) (b : Byte) : (s.setV x b).draws = s.draws := rfl
@[simp] theorem State.setV_getUf (x : Nibble) (b : Byte) (y : Nibble) : (s.setV x b).getUf y = s.getUf y := rfl
@[simp] theorem State.setV_readByte (x : Nibble) (b : Byte) (c : Nat) : (s.setV x b).readByte c = s.readByte c := rfl
@[simp] theorem State.setV_sp (x : Nibble) (b : Byte) : (s.setV x b).sp = s.sp := rfl
@[simp] theorem State.setV_q (x : Nibble) (b : Byte) : (s.setV x b).q = s.q := rfl

/-! ## `State.setPc` -/

@[simp] theorem State.setPc_variant (t : Word) : (s.setPc t).variant = s.variant := rfl
@[simp] theorem State.setPc_v (t : Word) : (s.setPc t).v = s.v := rfl
@[simp] theorem State.setPc_pc (t : Word) : (s.setPc t).pc = t % 4096 := rfl
@[simp] theorem State.setPc_i (t : Word) : (s.setPc t).i = s.i := rfl
@[simp] theorem State.setPc_stack (t : Word) : (s.setPc t).stack = s.stack := rfl
@[simp] theorem State.setPc_dt (t : Word) : (s.setPc t).dt = s.dt := rfl
@[simp] theorem State.setPc_st (t : Word) : (s.setPc t).st = s.st := rfl
@[simp] theorem State.setPc_fb (t : Word) : (s.setPc t).fb = s.fb := rfl
@[simp] theorem State.setPc_highRes (t : Word) : (s.setPc t).highRes = s.highRes := rfl
@[simp] theorem State.setPc_latch (t : Word) : (s.setPc t).latch = s.latch := rfl
@[simp] theorem State.setPc_uf (t : Word) : (s.setPc t).uf = s.uf := rfl
@[simp] theorem State.setPc_status (t : Word) : (s.setPc t).status = s.status := rfl
@[simp] theorem State.setPc_started (t : Word) : (s.setPc t).started = s.started := rfl
@[simp] theorem State.setPc_mem (t : Word) : (s.setPc t).mem = s.mem := rfl
@[simp] theorem State.setPc_keys (t : Word) : (s.setPc t).keys = s.keys := rfl
@[simp] theorem State.setPc_rnd (t : Word) : (s.setPc t).rnd = s.rnd := rfl
@[simp] theorem State.setPc_updated (t : Word) : (s.setPc t).updated = s.updated := rfl
@[simp] theorem State.setPc_pending (t : Word) : (s.setPc t).pending = s.pending := rfl
@[simp] theorem State.setPc_draws (t : Word) : (s.setPc t).draws = s.draws := rfl
@[simp] theorem State.setPc_getV (t : Word) (y : Nibble) : (s.setPc t).getV y = s.getV y := rfl
@[simp] theorem State.setPc_getUf (t : Word) (y : Nibble) : (s.setPc t).getUf y = s.getUf y := rfl
@[simp] theorem State.setPc_readByte (t : Word) (c : Nat) : (s.setPc t).readByte c = s.readByte c := rfl
@[simp] theorem State.setPc_sp (t : Word) : (s.setPc t).sp = s.sp := rfl
@[simp] theorem State.setPc_q (t : Word) : (s.setPc t).q = s.q := rfl

/-! ## `State.setI` -/

@[simp] theorem State.setI_variant (t : Word) : (s.setI t).variant = s.variant := rfl
@[simp] theorem State.setI_v (t : Word) : (s.setI t).v = s.v := rfl
@[simp] theorem State.setI_pc (t : Word) : (s.setI t).pc = s.pc := rfl
@[simp] theorem State.setI_i (t : Word) : (s.setI t).i = t := rfl
@[simp] theorem State.setI_stack (t : Word) : (s.setI t).stack = s.stack := rfl
@[simp] theorem State.setI_dt (t : Word) : (s.setI t).dt = s.dt := rfl
@[simp] theorem State.setI_st (t : Word) : (s.setI t).st = s.st := rfl
@[simp] theorem State.setI_fb (t : Word) : (s.setI t).fb = s.fb := rfl
@[simp] theorem State.setI_highRes (t : Word) : (s.setI t).highRes = s.highRes := rfl
@[simp] theorem State.setI_latch (t : Word) : (s.setI t).latch = s.latch := rfl
@[simp] theorem State.setI_uf (t : Word) : (s.setI t).uf = s.uf := rfl
@[simp] theorem State.setI_status (t : Word) : (s.setI t).status = s.status := rfl
@[simp] theorem State.setI_started (t : Word) : (s.setI t).started = s.started := rfl
@[simp] theorem State.setI_mem (t : Word) : (s.setI t).mem = s.mem := rfl
@[simp] theorem State.setI_keys (t : Word) : (s.setI t).keys = s.keys := rfl
@[simp] theorem State.setI_rnd (t : Word) : (s.setI t).rnd = s.rnd := rfl
@[simp] theorem State.setI_updated (t : Word) : (s.setI t).updated = s.updated := rfl
@[simp] theorem State.setI_pending (t : Word) : (s.setI t).pending = s.pending := rfl
@[simp] theorem State.setI_draws (t : Word) : (s.setI t).draws = s.draws := rfl
@[simp] theorem State.setI_getV (t : Word) (y : Nibble) : (s.setI t).getV y = s.getV y := rfl
@[simp] theorem State.setI_getUf (t : Word) (y : Nibble) : (s.setI t).getUf y = s.getUf y := rfl
@[simp] theorem State.setI_readByte (t : Word) (c : Nat) : (s.setI t).readByte c = s.readByte c := rfl
@[simp] theorem State.setI_sp (t : Word) : (s.setI t).sp = s.sp := rfl
@[simp] theorem State.setI_q (t : Word) : (s.setI t).q = s.q := rfl

/-! ## `State.setDt` -/

@[simp] theorem State.setDt_variant (b : Byte) : (s.setDt b).variant = s.variant := rfl
@[simp] theorem State.setDt_v (b : Byte) : (s.setDt b).v = s.v := rfl
@[simp] theorem State.setDt_pc (b : Byte) : (s.setDt b).pc = s.pc := rfl
@[simp] theorem State.setDt_i (b : Byte) : (s.setDt b).i = s.i := rfl
@[simp] theorem State.setDt_stack (b : Byte) : (s.setDt b).stack = s.stack := rfl
@[simp] theorem State.setDt_dt (b : Byte) : (s.setDt b).dt = b := rfl
@[simp] theorem State.setDt_st (b : Byte) : (s.setDt b).st = s.st := rfl
@[simp] theorem State.setDt_fb (b : Byte) : (s.setDt b).fb = s.fb := rfl
@[simp] theorem State.setDt_highRes (b : Byte) : (s.setDt b).highRes = s.highRes := rfl
@[simp] theorem State.setDt_latch (b : Byte) : (s.setDt b).latch = s.latch := rfl
@[simp] theorem State.setDt_uf (b : Byte) : (s.setDt b).uf = s.uf := rfl
@[simp] theorem State.setDt_status (b : Byte) : (s.setDt b).status = s.status := rfl
@[simp] theorem State.setDt_started (b : Byte) : (s.setDt b).started = s.started := rfl
@[simp] theorem State.setDt_mem (b : Byte) : (s.setDt b).mem = s.mem := rfl
@[simp] theorem State.setDt_keys (b : Byte) : (s.setDt b).keys = s.keys := rfl
@[simp] theorem State.setDt_rnd (b : Byte) : (s.setDt b).rnd = s.rnd := rfl
@[simp] theorem State.setDt_updated (b : Byte) : (s.setDt b).updated = s.updated := rfl
@[simp] theorem State.setDt_pending (b : Byte) : (s.setDt b).pending = s.pending := rfl
@[simp] theorem State.setDt_draws (b : Byte) : (s.setDt b).draws = s.draws := rfl
@[simp] theorem State.setDt_getV (b : Byte) (y : Nibble) : (s.setDt b).getV y = s.getV y := rfl
@[simp] theorem State.setDt_getUf (b : Byte) (y : Nibble) : (s.setDt b).getUf y = s.getUf y := rfl
@[simp] theorem State.setDt_readByte (b : Byte) (c : Nat) : (s.setDt b).readByte c = s.readByte c := rfl
@[simp] theorem State.setDt_sp (b : Byte) : (s.setDt b).sp = s.sp := rfl
@[simp] theorem State.setDt_q (b : Byte) : (s.setDt b).q = s.q := rfl

/-! ## `State.setSt` -/

@[simp] theorem State.setSt_variant (b : Byte) : (s.setSt b).variant = s.variant := rfl
@[simp] theorem State.setSt_v (b : Byte) : (s.setSt b).v = s.v := rfl
@[simp] theorem State.setSt_pc (b : Byte) : (s.setSt b).pc = s.pc := rfl
@[simp] theorem State.setSt_i (b : Byte) : (s.setSt b).i = s.i := rfl
@[simp] theorem State.setSt_stack (b : Byte) : (s.setSt b).stack = s.stack := rfl
@[simp] theorem State.setSt_dt (b : Byte) : (s.setSt b).dt = s.dt := rfl
@[simp] theorem State.setSt_st (b : Byte) : (s.setSt b).st = b := rfl
@[simp] theorem State.setSt_fb (b : Byte) : (s.setSt b).fb = s.fb := rfl
@[simp] theorem State.setSt_highRes (b : Byte) : (s.setSt b).highRes = s.highRes := rfl
@[simp] theorem State.setSt_latch (b : Byte) : (s.setSt b).latch = s.latch := rfl
@[simp] theorem State.setSt_uf (b : Byte) : (s.setSt b).uf = s.uf := rfl
@[simp] theorem State.setSt_status (b : Byte) : (s.setSt b).status = s.status := rfl
@[simp] theorem State.setSt_started (b : Byte) : (s.setSt b).started = s.started := rfl
@[simp] theorem State.setSt_mem (b : Byte) : (s.setSt b).mem = s.mem := rfl
@[simp] theorem State.setSt_keys (b : Byte) : (s.setSt b).keys = s.keys := rfl
@[simp] theorem State.setSt_rnd (b : Byte) : (s.setSt b).rnd = s.rnd := rfl
@[simp] theorem State.setSt_updated (b : Byte) : (s.setSt b).updated = s.updated := rfl
@[simp] theorem State.setSt_pending (b : Byte) : (s.setSt b).pending = s.pending := rfl
@[simp] theorem State.setSt_draws (b : Byte) : (s.setSt b).draws = s.draws := rfl
@[simp] theorem State.setSt_getV (b : Byte) (y : Nibble) : (s.setSt b).getV y = s.getV y := rfl
@[simp] theorem State.setSt_getUf (b : Byte) (y : Nibble) : (s.setSt b).getUf y = s.getUf y := rfl
@[simp] theorem State.setSt_readByte (b : Byte) (c : Nat) : (s.setSt b).readByte c = s.readByte c := rfl
@[simp] theorem State.setSt_sp (b : Byte) : (s.setSt b).sp = s.sp := rfl
@[simp] theorem State.setSt_q (b : Byte) : (s.setSt b).q = s.q := rfl

/-! ## `State.setHighRes` -/

@[simp] theorem State.setHighRes_variant (b : Bool) : (s.setHighRes b).variant = s.variant := rfl
@[simp] theorem State.setHighRes_v (b : Bool) : (s.setHighRes b).v = s.v := rfl
@[simp] theorem State.setHighRes_pc (b : Bool) : (s.setHighRes b).pc = s.pc := rfl
@[simp] theorem State.setHighRes_i (b : Bool) : (s.setHighRes b).i = s.i := rfl
@[simp] theorem State.setHighRes_stack (b : Bool) : (s.setHighRes b).stack = s.stack := rfl
@[simp] theorem State.setHighRes_dt (b : Bool) : (s.setHighRes b).dt = s.dt := rfl
@[simp] theorem State.setHighRes_st (b : Bool) : (s.setHighRes b).st = s.st := rfl
@[simp] theorem State.setHighRes_fb (b : Bool) : (s.setHighRes b).fb = s.fb := rfl
@[simp] theorem State.setHighRes_highRes (b : Bool) : (s.setHighRes b).highRes = b := rfl
@[simp] theorem State.setHighRes_latch (b : Bool) : (s.setHighRes b).latch = s.latch := rfl
@[simp] theorem State.setHighRes_uf (b : Bool) : (s.setHighRes b).uf = s.uf := rfl
@[simp] theorem State.setHighRes_status (b : Bool) : (s.setHighRes b).status = s.status := rfl
@[simp] theorem State.setHighRes_started (b : Bool) : (s.setHighRes b).started = s.started := rfl
@[simp] theorem State.setHighRes_mem (b : Bool) : (s.setHighRes b).mem = s.mem := rfl
@[simp] theorem State.setHighRes_keys (b : Bool) : (s.setHighRes b).keys = s.keys := rfl
@[simp] theorem State.setHighRes_rnd (b : Bool) : (s.setHighRes b).rnd = s.rnd := rfl
@[simp] theorem State.setHighRes_updated (b : Bool) : (s.setHighRes b).updated = s.updated := rfl
@[simp] theorem State.setHighRes_pending (b : Bool) : (s.setHighRes b).pending = s.pending := rfl
@[simp] theorem State.setHighRes_draws (b : Bool) : (s.setHighRes b).draws = s.draws := rfl
@[simp] theorem State.setHighRes_getV (b : Bool) (y : Nibble) : (s.setHighRes b).getV y = s.getV y := rfl
@[simp] theorem State.setHighRes_getUf (b : Bool) (y : Nibble) : (s.setHighRes b).getUf y = s.getUf y := rfl
@[simp] theorem State.setHighRes_readByte (b : Bool) (c : Nat) : (s.setHighRes b).readByte c = s.readByte c := rfl
@[simp] theorem State.setHighRes_sp (b : Bool) : (s.setHighRes b).sp = s.sp := rfl
@[simp] theorem State.setHighRes_q (b : Bool) : (s.setHighRes b).q = s.q := rfl

/-! ## `State.setLatch` -/

@[simp] theorem State.setLatch_variant (m : Word) : (s.setLatch m).variant = s.variant := rfl
@[simp] theorem State.setLatch_v (m : Word) : (s.setLatch m).v = s.v := rfl
@[simp] theorem State.setLatch_pc (m : Word) : (s.setLatch m).pc = s.pc := rfl
@[simp] theorem State.setLatch_i (m : Word) : (s.setLatch m).i = s.i := rfl
@[simp] theorem State.setLatch_stack (m : Word) : (s.setLatch m).stack = s.stack := rfl
@[simp] theorem State.setLatch_dt (m : Word) : (s.setLatch m).dt = s.dt := rfl
@[simp] theorem State.setLatch_st (m : Word) : (s.setLatch m).st = s.st := rfl
@[simp] theorem State.setLatch_fb (m : Word) : (s.setLatch m).fb = s.fb := rfl
@[simp] theorem State.setLatch_highRes (m : Word) : (s.setLatch m).highRes = s.highRes := rfl
@[simp] theorem State.setLatch_latch (m : Word) : (s.setLatch m).latch = m := rfl
@[simp] theorem State.setLatch_uf (m : Word) : (s.setLatch m).uf = s.uf := rfl
@[simp] theorem State.setLatch_status (m : Word) : (s.setLatch m).status = s.status := rfl
@[simp] theorem State.setLatch_started (m : Word) : (s.setLatch m).started = s.started := rfl
@[simp] theorem State.setLatch_mem (m : Word) : (s.setLatch m).mem = s.mem := rfl
@[simp] theorem State.setLatch_keys (m : Word) : (s.setLatch m).keys = s.keys := rfl
@[simp] theorem State.setLatch_rnd (m : Word) : (s.setLatch m).rnd = s.rnd := rfl
@[simp] theorem State.setLatch_updated (m : Word) : (s.setLatch m).updated = s.updated := rfl
@[simp] theorem State.setLatch_pending (m : Word) : (s.setLatch m).pending = s.pending := rfl
@[simp] theorem State.setLatch_draws (m : Word) : (s.setLatch m).draws = s.draws := rfl
@[simp] theorem State.setLatch_getV (m : Word) (y : Nibble) : (s.setLatch m).getV y = s.getV y := rfl
@[simp] theorem State.setLatch_getUf (m : Word) (y : Nibble) : (s.setLatch m).getUf y = s.getUf y := rfl
@[simp] theorem State.setLatch_readByte (m : Word) (c : Nat) : (s.setLatch m).readByte c = s.readByte c := rfl
@[simp] theorem State.setLatch_sp (m : Word) : (s.setLatch m).sp = s.sp := rfl
@[simp] theorem State.setLatch_q (m : Word) : (s.setLatch m).q = s.q := rfl

/-! ## `State.setVUpTo` -/

@[simp] theorem State.setVUpTo_variant (x : Nibble) (f : Nat → Byte) : (s.setVUpTo x f).variant = s.variant := rfl
@[simp] theorem State.setVUpTo_v (x : Nibble) (f : Nat → Byte) : (s.setVUpTo x f).v = writeBank s.v f (x.toNat + 1) := rfl
@[simp] theorem State.setVUpTo_pc (x : Nibble) (f : Nat → Byte) : (s.setVUpTo x f).pc = s.pc := rfl
@[simp] theorem State.setVUpTo_i (x : Nibble) (f : Nat → Byte) : (s.setVUpTo x f).i = s.i := rfl
@[simp] theorem State.setVUpTo_stack (x : Nibble) (f : Nat → Byte) : (s.setVUpTo x f).stack = s.stack := rfl
@[simp] theorem State.setVUpTo_dt (x : Nibble) (f : Nat → Byte) : (s.setVUpTo x f).dt = s.dt := rfl
@[simp] theorem State.setVUpTo_st (x : Nibble) (f : Nat → Byte) : (s.setVUpTo x f).st = s.st := rfl
@[simp] theorem State.setVUpTo_fb (x : Nibble) (f : Nat → Byte) : (s.setVUpTo x f).fb = s.fb := rfl
@[simp] theorem State.setVUpTo_highRes (x : Nibble) (f : Nat → Byte) : (s.setVUpTo x f).highRes = s.highRes := rfl
@[simp] theorem State.setVUpTo_latch (x : Nibble) (f : Nat → Byte) : (s.setVUpTo x f).latch = s.latch := rfl
@[simp] theorem State.setVUpTo_uf (x : Nibble) (f : Nat → Byte) : (s.setVUpTo x f).uf = s.uf := rfl
@[simp] theorem State.setVUpTo_status (x : Nibble) (f : Nat → Byte) : (s.setVUpTo x f).status = s.status := rfl
@[simp] theorem State.setVUpTo_started (x : Nibble) (f : Nat → Byte) : (s.setVUpTo x f).started = s.started := rfl
@[simp] theorem State.setVUpTo_mem (x : Nibble) (f : Nat → Byte) : (s.setVUpTo x f).mem = s.mem := rfl
@[simp] theorem State.setVUpTo_keys (x : Nibble) (f : Nat → Byte) : (s.setVUpTo x f).keys = s.keys := rfl
@[simp] theorem State.setVUpTo_rnd (x : Nibble) (f : Nat → Byte) : (s.setVUpTo x f).rnd = s.rnd := rfl
@[simp] theorem State.setVUpTo_updated (x : Nibble) (f : Nat → Byte) : (s.setVUpTo x f).updated = s.updated := rfl
@[simp] theorem State.setVUpTo_pending (x : Nibble) (f : Nat → Byte) : (s.setVUpTo x f).pending = s.pending := rfl
@[simp] theorem State.setVUpTo_draws (x : Nibble) (f : Nat → Byte) : (s.setVUpTo x f).draws = s.draws := rfl
@[simp] theorem State.setVUpTo_getUf (x : Nibble) (f : Nat → Byte) (y : Nibble) : (s.setVUpTo x f).getUf y = s.getUf y := rfl
@[simp] theorem State.setVUpTo_readByte (x : Nibble) (f : Nat → Byte) (c : Nat) : (s.setVUpTo x f).readByte c = s.readByte c := rfl
@[simp] theorem State.setVUpTo_sp (x : Nibble) (f : Nat → Byte) : (s.setVUpTo x f).sp = s.sp := rfl
@[simp] theorem State.setVUpTo_q (x : Nibble) (f : Nat → Byte) : (s.setVUpTo x f).q = s.q := rfl

/-! ## `State.setUfUpTo` -/

@[simp] theorem State.setUfUpTo_variant (x : Nibble) (f : Nat → Byte) : (s.setUfUpTo x f).variant = s.variant := rfl
@[simp] theorem State.setUfUpTo_v (x : Nibble) (f : Nat → Byte) : (s.setUfUpTo x f).v = s.v := rfl
@[simp] theorem State.setUfUpTo_pc (x : Nibble) (f : Nat → Byte) : (s.setUfUpTo x f).pc = s.pc := rfl
@[simp] theorem State.setUfUpTo_i (x : Nibble) (f : Nat → Byte) : (s.setUfUpTo x f).i = s.i := rfl
@[simp] theorem State.setUfUpTo_stack (x : Nibble) (f : Nat → Byte) : (s.setUfUpTo x f).stack = s.stack := rfl
@[simp] theorem State.setUfUpTo_dt (x : Nibble) (f : Nat → Byte) : (s.setUfUpTo x f).dt = s.dt := rfl
@[simp] theorem State.setUfUpTo_st (x : Nibble) (f : Nat → Byte) : (s.setUfUpTo x f).st = s.st := rfl
@[simp] theorem State.setUfUpTo_fb (x : Nibble) (f : Nat → Byte) : (s.setUfUpTo x f).fb = s.fb := rfl
@[simp] theorem State.setUfUpTo_highRes (x : Nibble) (f : Nat → Byte) : (s.setUfUpTo x f).highRes = s.highRes := rfl
@[simp] theorem State.setUfUpTo_latch (x : Nibble) (f : Nat → Byte) : (s.setUfUpTo x f).latch = s.latch := rfl
@[simp] theorem State.setUfUpTo_uf (x : Nibble) (f : Nat → Byte) : (s.setUfUpTo x f).uf = writeBank s.uf f (x.toNat + 1) := rfl
@[simp] theorem State.setUfUpTo_status (x : Nibble) (f : Nat → Byte) : (s.setUfUpTo x f).status = s.status := rfl
@[simp] theorem State.setUfUpTo_started (x : Nibble) (f : Nat → Byte) : (s.setUfUpTo x f).started = s.started := rfl
@[simp] theorem State.setUfUpTo_mem (x : Nibble) (f : Nat → Byte) : (s.setUfUpTo x f).mem = s.mem := rfl
@[simp] theorem State.setUfUpTo_keys (x : Nibble) (f : Nat → Byte) : (s.setUfUpTo x f).keys = s.keys := rfl
@[simp] theorem State.setUfUpTo_rnd (x : Nibble) (f : Nat → Byte) : (s.setUfUpTo x f).rnd = s.rnd := rfl
@[simp] theorem State.setUfUpTo_updated (x : Nibble) (f : Nat → Byte) : (s.setUfUpTo x f).updated = s.updated := rfl
@[simp] theorem State.setUfUpTo_pending (x : Nibble) (f : Nat → Byte) : (s.setUfUpTo x f).pending = s.pending := rfl
@[simp] theorem State.setUfUpTo_draws (x : Nibble) (f : Nat → Byte) : (s.setUfUpTo x f).draws = s.draws := rfl
@[simp] theorem State.setUfUpTo_getV (x : Nibble) (f : Nat → Byte) (y : Nibble) : (s.setUfUpTo x f).getV y = s.getV y := rfl
@[simp] theorem State.setUfUpTo_readByte (x : Nibble) (f : Nat → Byte) (c : Nat) : (s.setUfUpTo x f).readByte c = s.readByte c := rfl
@[simp] theorem State.setUfUpTo_sp (x : Nibble) (f : Nat → Byte) : (s.setUfUpTo x f).sp = s.sp := rfl
@[simp] theorem State.setUfUpTo_q (x : Nibble) (f : Nat → Byte) : (s.setUfUpTo x f).q = s.q := rfl

/-! ## `State.writeByte` -/

@[simp] theorem State.writeByte_variant (a : Nat) (b : Byte) : (s.writeByte a b).variant = s.variant := rfl
@[simp] theorem State.writeByte_v (a : Nat) (b : Byte) : (s.writeByte a b).v = s.v := rfl
@[simp] theorem State.writeByte_pc (a : Nat) (b : Byte) : (s.writeByte a b).pc = s.pc := rfl
@[simp] theorem State.writeByte_i (a : Nat) (b : Byte) : (s.writeByte a b).i = s.i := rfl
@[simp] theorem State.writeByte_stack (a : Nat) (b : Byte) : (s.writeByte a b).stack = s.stack := rfl
@[simp] theorem State.writeByte_dt (a : Nat) (b : Byte) : (s.writeByte a b).dt = s.dt := rfl
@[simp] theorem State.writeByte_st (a : Nat) (b : Byte) : (s.writeByte a b).st = s.st := rfl
@[simp] theorem State.writeByte_fb (a : Nat) (b : Byte) : (s.writeByte a b).fb = s.fb := rfl
@[simp] theorem State.writeByte_highRes (a : Nat) (b : Byte) : (s.writeByte a b).highRes = s.highRes := rfl
@[simp] theorem State.writeByte_latch (a : Nat) (b : Byte) : (s.writeByte a b).latch = s.latch := rfl
@[simp] theorem State.writeByte_uf (a : Nat) (b : Byte) : (s.writeByte a b).uf = s.uf := rfl
@[simp] theorem State.writeByte_status (a : Nat) (b : Byte) : (s.writeByte a b).status = s.status := rfl
@[simp] theorem State.writeByte_started (a : Nat) (b : Byte) : (s.writeByte a b).started = s.started := rfl
@[simp] theorem State.writeByte_mem (a : Nat) (b : Byte) : (s.writeByte a b).mem = Memory.write s.mem (a % memorySize) b := rfl
@[simp] theorem State.writeByte_keys (a : Nat) (b : Byte) : (s.writeByte a b).keys = s.keys := rfl
@[simp] theorem State.writeByte_rnd (a : Nat) (b : Byte) : (s.writeByte a b).rnd = s.rnd := rfl
@[simp] theorem State.writeByte_updated (a : Nat) (b : Byte) : (s.writeByte a b).updated = s.updated := rfl
@[simp] theorem State.writeByte_pending (a : Nat) (b : Byte) : (s.writeByte a b).pending = s.pending := rfl
@[simp] theorem State.writeByte_draws (a : Nat) (b : Byte) : (s.writeByte a b).draws = s.draws := rfl
@[simp] theorem State.writeByte_getV (a : Nat) (b : Byte) (y : Nibble) : (s.writeByte a b).getV y = s.getV y := rfl
@[simp] theorem State.writeByte_getUf (a : Nat) (b : Byte) (y : Nibble) : (s.writeByte a b).getUf y = s.getUf y := rfl
@[simp] theorem State.writeByte_sp (a : Nat) (b : Byte) : (s.writeByte a b).sp = s.sp := rfl
@[simp] theorem State.writeByte_q (a : Nat) (b : Byte) : (s.writeByte a b).q = s.q := rfl

/-! ## `State.setDisplay` -/

@[simp] theorem State.setDisplay_variant (d : FrameBuffer) : (s.setDisplay d).variant = s.variant := rfl
@[simp] theorem State.setDisplay_v (d : FrameBuffer) : (s.setDisplay d).v = s.v := rfl
@[simp] theorem State.setDisplay_pc (d : FrameBuffer) : (s.setDisplay d).pc = s.pc := rfl
@[simp] theorem State.setDisplay_i (d : FrameBuffer) : (s.setDisplay d).i = s.i := rfl
@[simp] theorem State.setDisplay_stack (d : FrameBuffer) : (s.setDisplay d).stack = s.stack := rfl
@[simp] theorem State.setDisplay_dt (d : FrameBuffer) : (s.setDisplay d).dt = s.dt := rfl
@[simp] theorem State.setDisplay_st (d : FrameBuffer) : (s.setDisplay d).st = s.st := rfl
@[simp] theorem State.setDisplay_fb (d : FrameBuffer) : (s.setDisplay d).fb = d := rfl
@[simp] theorem State.setDisplay_highRes (d : FrameBuffer) : (s.setDisplay d).highRes = s.highRes := rfl
@[simp] theorem State.setDisplay_latch (d : FrameBuffer) : (s.setDisplay d).latch = s.latch := rfl
@[simp] theorem State.setDisplay_uf (d : FrameBuffer) : (s.setDisplay d).uf = s.uf := rfl
@[simp] theorem State.setDisplay_status (d : FrameBuffer) : (s.setDisplay d).status = s.status := rfl
@[simp] theorem State.setDisplay_started (d : FrameBuffer) : (s.setDisplay d).started = s.started := rfl
@[simp] theorem State.setDisplay_mem (d : FrameBuffer) : (s.setDisplay d).mem = s.mem := rfl
@[simp] theorem State.setDisplay_keys (d : FrameBuffer) : (s.setDisplay d).keys = s.keys := rfl
@[simp] theorem State.setDisplay_rnd (d : FrameBuffer) : (s.setDisplay d).rnd = s.rnd := rfl
@[simp] theorem State.setDisplay_updated (d : FrameBuffer) : (s.setDisplay d).updated = true := rfl
@[simp] theorem State.setDisplay_pending (d : FrameBuffer) : (s.setDisplay d).pending = s.pending := rfl
@[simp] theorem State.setDisplay_draws (d : FrameBuffer) : (s.setDisplay d).draws = s.draws := rfl
@[simp] theorem State.setDisplay_getV (d : FrameBuffer) (y : Nibble) : (s.setDisplay d).getV y = s.getV y := rfl
@[simp] theorem State.setDisplay_getUf (d : FrameBuffer) (y : Nibble) : (s.setDisplay d).getUf y = s.getUf y := rfl
@[simp] theorem State.setDisplay_readByte (d : FrameBuffer) (c : Nat) : (s.setDisplay d).readByte c = s.readByte c := rfl
@[simp] theorem State.setDisplay_sp (d : FrameBuffer) : (s.setDisplay d).sp = s.sp := rfl
@[simp] theorem State.setDisplay_q (d : FrameBuffer) : (s.setDisplay d).q = s.q := rfl

/-! ## `State.raise` -/

@[simp] theorem State.raise_variant (e : ErrorKind) : (s.raise e).variant = s.variant := rfl
@[simp] theorem State.raise_v (e : ErrorKind) : (s.raise e).v = s.v := rfl
@[simp] theorem State.raise_pc (e : ErrorKind) : (s.raise e).pc = s.pc := rfl
@[simp] theorem State.raise_i (e : ErrorKind) : (s.raise e).i = s.i := rfl
@[simp] theorem State.raise_stack (e : ErrorKind) : (s.raise e).stack = s.stack := rfl
@[simp] theorem State.raise_dt (e : ErrorKind) : (s.raise e).dt = s.dt := rfl
@[simp] theorem State.raise_st (e : ErrorKind) : (s.raise e).st = s.st := rfl
@[simp] theorem State.raise_fb (e : ErrorKind) : (s.raise e).fb = s.fb := rfl
@[simp] theorem State.raise_highRes (e : ErrorKind) : (s.raise e).highRes = s.highRes := rfl
@[simp] theorem State.raise_latch (e : ErrorKind) : (s.raise e).latch = s.latch := rfl
@[simp] theorem State.raise_uf (e : ErrorKind) : (s.raise e).uf = s.uf := rfl
@[simp] theorem State.raise_status (e : ErrorKind) : (s.raise e).status = e.status := rfl
@[simp] theorem State.raise_started (e : ErrorKind) : (s.raise e).started = s.started := rfl
@[simp] theorem State.raise_mem (e : ErrorKind) : (s.raise e).mem = s.mem := rfl
@[simp] theorem State.raise_keys (e : ErrorKind) : (s.raise e).keys = s.keys := rfl
@[simp] theorem State.raise_rnd (e : ErrorKind) : (s.raise e).rnd = s.rnd := rfl
@[simp] theorem State.raise_updated (e : ErrorKind) : (s.raise e).updated = false := rfl
@[simp] theorem State.raise_pending (e : ErrorKind) : (s.raise e).pending = s.pending := rfl
@[simp] theorem State.raise_draws (e : ErrorKind) : (s.raise e).draws = s.draws := rfl
@[simp] theorem State.raise_getV (e : ErrorKind) (y : Nibble) : (s.raise e).getV y = s.getV y := rfl
@[simp] theorem State.raise_getUf (e : ErrorKind) (y : Nibble) : (s.raise e).getUf y = s.getUf y := rfl
@[simp] theorem State.raise_readByte (e : ErrorKind) (c : Nat) : (s.raise e).readByte c = s.readByte c := rfl
@[simp] theorem State.raise_sp (e : ErrorKind) : (s.raise e).sp = s.sp := rfl
@[simp] theorem State.raise_q (e : ErrorKind) : (s.raise e).q = s.q := rfl

/-! ## `State.fetchAdvance` -/

@[simp] theorem State.fetchAdvance_variant : (s.fetchAdvance).variant = s.variant := rfl
@[simp] theorem State.fetchAdvance_v : (s.fetchAdvance).v = s.v := rfl
@[simp] theorem State.fetchAdvance_pc : (s.fetchAdvance).pc = (s.pc + 2) % 4096 := rfl
@[simp] theorem State.fetchAdvance_i : (s.fetchAdvance).i = s.i := rfl
@[simp] theorem State.fetchAdvance_stack : (s.fetchAdvance).stack = s.stack := rfl
@[simp] theorem State.fetchAdvance_dt : (s.fetchAdvance).dt = s.dt := rfl
@[simp] theorem State.fetchAdvance_st : (s.fetchAdvance).st = s.st := rfl
@[simp] theorem State.fetchAdvance_fb : (s.fetchAdvance).fb = s.fb := rfl
@[simp] theorem State.fetchAdvance_highRes : (s.fetchAdvance).highRes = s.highRes := rfl
@[simp] theorem State.fetchAdvance_latch : (s.fetchAdvance).latch = s.latch := rfl
@[simp] theorem State.fetchAdvance_uf : (s.fetchAdvance).uf = s.uf := rfl
@[simp] theorem State.fetchAdvance_status : (s.fetchAdvance).status = s.status := rfl
@[simp] theorem State.fetchAdvance_started : (s.fetchAdvance).started = true := rfl
@[simp] theorem State.fetchAdvance_mem : (s.fetchAdvance).mem = s.mem := rfl
@[simp] theorem State.fetchAdvance_keys : (s.fetchAdvance).keys = s.keys := rfl
@[simp] theorem State.fetchAdvance_rnd : (s.fetchAdvance).rnd = s.rnd := rfl
@[simp] theorem State.fetchAdvance_updated : (s.fetchAdvance).updated = s.updated := rfl
@[simp] theorem State.fetchAdvance_pending : (s.fetchAdvance).pending = s.pending := rfl
@[simp] theorem State.fetchAdvance_draws : (s.fetchAdvance).draws = s.draws := rfl
@[simp] theorem State.fetchAdvance_getV (y : Nibble) : (s.fetchAdvance).getV y = s.getV y := rfl
@[simp] theorem State.fetchAdvance_getUf (y : Nibble) : (s.fetchAdvance).getUf y = s.getUf y := rfl
@[simp] theorem State.fetchAdvance_readByte (c : Nat) : (s.fetchAdvance).readByte c = s.readByte c := rfl
@[simp] theorem State.fetchAdvance_sp : (s.fetchAdvance).sp = s.sp := rfl
@[simp] theorem State.fetchAdvance_q : (s.fetchAdvance).q = s.q := rfl

/-! ## `State.sampleInputs` -/

@[simp] theorem State.sampleInputs_variant (k : Word) (r : Byte) : (s.sampleInputs k r).variant = s.variant := rfl
@[simp] theorem State.sampleInputs_v (k : Word) (r : Byte) : (s.sampleInputs k r).v = s.v := rfl
@[simp] theorem State.sampleInputs_pc (k : Word) (r : Byte) : (s.sampleInputs k r).pc = s.pc := rfl
@[simp] theorem State.sampleInputs_i (k : Word) (r : Byte) : (s.sampleInputs k r).i = s.i := rfl
@[simp] theorem State.sampleInputs_stack (k : Word) (r : Byte) : (s.sampleInputs k r).stack = s.stack := rfl
@[simp] theorem State.sampleInputs_dt (k : Word) (r : Byte) : (s.sampleInputs k r).dt = s.dt := rfl
@[simp] theorem State.sampleInputs_st (k : Word) (r : Byte) : (s.sampleInputs k r).st = s.st := rfl
@[simp] theorem State.sampleInputs_fb (k : Word) (r : Byte) : (s.sampleInputs k r).fb = s.fb := rfl
@[simp] theorem State.sampleInputs_highRes (k : Word) (r : Byte) : (s.sampleInputs k r).highRes = s.highRes := rfl
@[simp] theorem State.sampleInputs_latch (k : Word) (r : Byte) : (s.sampleInputs k r).latch = s.latch := rfl
@[simp] theorem State.sampleInputs_uf (k : Word) (r : Byte) : (s.sampleInputs k r).uf = s.uf := rfl
@[simp] theorem State.sampleInputs_status (k : Word) (r : Byte) : (s.sampleInputs k r).status = s.status := rfl
@[simp] theorem State.sampleInputs_started (k : Word) (r : Byte) : (s.sampleInputs k r).started = s.started := rfl
@[simp] theorem State.sampleInputs_mem (k : Word) (r : Byte) : (s.sampleInputs k r).mem = s.mem := rfl
@[simp] theorem State.sampleInputs_keys (k : Word) (r : Byte) : (s.sampleInputs k r).keys = k := rfl
@[simp] theorem State.sampleInputs_rnd (k : Word) (r : Byte) : (s.sampleInputs k r).rnd = r := rfl
@[simp] theorem State.sampleInputs_updated (k : Word) (r : Byte) : (s.sampleInputs k r).updated = false := rfl
@[simp] theorem State.sampleInputs_pending (k : Word) (r : Byte) : (s.sampleInputs k r).pending = s.pending := rfl
@[simp] theorem State.sampleInputs_draws (k : Word) (r : Byte) : (s.sampleInputs k r).draws = s.draws := rfl
@[simp] theorem State.sampleInputs_getV (k : Word) (r : Byte) (y : Nibble) : (s.sampleInputs k r).getV y = s.getV y := rfl
@[simp] theorem State.sampleInputs_getUf (k : Word) (r : Byte) (y : Nibble) : (s.sampleInputs k r).getUf y = s.getUf y := rfl
@[simp] theorem State.sampleInputs_readByte (k : Word) (r : Byte) (c : Nat) : (s.sampleInputs k r).readByte c = s.readByte c := rfl
@[simp] theorem State.sampleInputs_sp (k : Word) (r : Byte) : (s.sampleInputs k r).sp = s.sp := rfl
@[simp] theorem State.sampleInputs_q (k : Word) (r : Byte) : (s.sampleInputs k r).q = s.q := rfl

/-! ## `State.runTimerTick` -/

@[simp] theorem State.runTimerTick_variant : (s.runTimerTick).variant = s.variant := rfl
@[simp] theorem State.runTimerTick_v : (s.runTimerTick).v = s.v := rfl
@[simp] theorem State.runTimerTick_pc : (s.runTimerTick).pc = s.pc := rfl
@[simp] theorem State.runTimerTick_i : (s.runTimerTick).i = s.i := rfl
@[simp] theorem State.runTimerTick_stack : (s.runTimerTick).stack = s.stack := rfl
@[simp] theorem State.runTimerTick_dt : (s.runTimerTick).dt = countDown s.dt := rfl
@[simp] theorem State.runTimerTick_st : (s.runTimerTick).st = countDown s.st := rfl
@[simp] theorem State.runTimerTick_fb : (s.runTimerTick).fb = s.fb := rfl
@[simp] theorem State.runTimerTick_highRes : (s.runTimerTick).highRes = s.highRes := rfl
@[simp] theorem State.runTimerTick_latch : (s.runTimerTick).latch = s.latch := rfl
@[simp] theorem State.runTimerTick_uf : (s.runTimerTick).uf = s.uf := rfl
@[simp] theorem State.runTimerTick_status : (s.runTimerTick).status = s.status := rfl
@[simp] theorem State.runTimerTick_started : (s.runTimerTick).started = s.started := rfl
@[simp] theorem State.runTimerTick_mem : (s.runTimerTick).mem = s.mem := rfl
@[simp] theorem State.runTimerTick_keys : (s.runTimerTick).keys = s.keys := rfl
@[simp] theorem State.runTimerTick_rnd : (s.runTimerTick).rnd = s.rnd := rfl
@[simp] theorem State.runTimerTick_updated : (s.runTimerTick).updated = s.updated := rfl
@[simp] theorem State.runTimerTick_pending : (s.runTimerTick).pending = s.pending := rfl
@[simp] theorem State.runTimerTick_draws : (s.runTimerTick).draws = s.draws := rfl
@[simp] theorem State.runTimerTick_getV (y : Nibble) : (s.runTimerTick).getV y = s.getV y := rfl
@[simp] theorem State.runTimerTick_getUf (y : Nibble) : (s.runTimerTick).getUf y = s.getUf y := rfl
@[simp] theorem State.runTimerTick_readByte (c : Nat) : (s.runTimerTick).readByte c = s.readByte c := rfl
@[simp] theorem State.runTimerTick_sp : (s.runTimerTick).sp = s.sp := rfl
@[simp] theorem State.runTimerTick_q : (s.runTimerTick).q = s.q := rfl

end Sys2Proof.Machine
end

