-- ==== Sys2Proof/Laws/Display.lean ====
section
/-! SUPPORT. The display buffer: what each operation does to one cell (44_display R264-R266, R270), what
drawing a list of cells does, which cells a sprite covers (R261), and that every operation keeps the
canonical form. -/

namespace Sys2Proof.Machine

theorem FrameBuffer.lit_iff (fb : FrameBuffer) (c r : Nat) :
    FrameBuffer.lit fb c r = true ↔ (c, r) ∈ fb := by
  simp [FrameBuffer.lit]

@[simp] theorem FrameBuffer.lit_nil (c r : Nat) : FrameBuffer.lit [] c r = false := rfl

theorem FrameBuffer.mem_insert (fb : FrameBuffer) (p q : Nat × Nat) :
    q ∈ FrameBuffer.insert fb p ↔ q = p ∨ q ∈ fb := by
  induction fb with
  | nil => simp [FrameBuffer.insert]
  | cons a fb ih =>
    unfold FrameBuffer.insert
    split <;> simp [ih, or_left_comm]

theorem FrameBuffer.mem_flip (fb : FrameBuffer) (c r : Nat) (q : Nat × Nat) :
    q ∈ FrameBuffer.flip fb c r ↔ (if q = (c, r) then q ∉ fb else q ∈ fb) := by
  unfold FrameBuffer.flip
  split
  · next h =>
    rw [FrameBuffer.lit_iff] at h
    by_cases hq : q = (c, r) <;> simp_all
  · next h =>
    rw [FrameBuffer.lit_iff] at h
    rw [FrameBuffer.mem_insert]
    by_cases hq : q = (c, r) <;> simp_all

/-- A flip turns its own cell over and leaves every other cell alone (R270). -/
theorem FrameBuffer.lit_flip (fb : FrameBuffer) (c r c' r' : Nat) :
    FrameBuffer.lit (FrameBuffer.flip fb c r) c' r' =
      if (c', r') = (c, r) then !FrameBuffer.lit fb c' r' else FrameBuffer.lit fb c' r' := by
  rw [Bool.eq_iff_iff, FrameBuffer.lit_iff, FrameBuffer.mem_flip]
  split <;> simp [FrameBuffer.lit]

theorem FrameBuffer.lit_scrollRight (fb : FrameBuffer) (k w c r : Nat) :
    FrameBuffer.lit (FrameBuffer.scrollRight fb k w) c r =
      (decide (c < w) && decide (k ≤ c) && FrameBuffer.lit fb (c - k) r) := by
  rw [Bool.eq_iff_iff]
  simp only [FrameBuffer.lit_iff, FrameBuffer.scrollRight, List.mem_filter, List.mem_map, Prod.exists,
    Prod.mk.injEq, Bool.and_eq_true, decide_eq_true_eq]
  constructor
  · rintro ⟨⟨a, b, hm, rfl, rfl⟩, hw⟩
    exact ⟨⟨hw, by omega⟩, by rwa [Nat.add_sub_cancel]⟩
  · rintro ⟨⟨hw, hk⟩, hm⟩
    exact ⟨⟨_, _, hm, by omega, rfl⟩, hw⟩

theorem FrameBuffer.lit_scrollLeft (fb : FrameBuffer) (k w c r : Nat) :
    FrameBuffer.lit (FrameBuffer.scrollLeft fb k w) c r =
      (decide (c + k < w) && FrameBuffer.lit fb (c + k) r) := by
  rw [Bool.eq_iff_iff]
  simp only [FrameBuffer.lit_iff, FrameBuffer.scrollLeft, List.mem_map, List.mem_filter, Prod.exists,
    Prod.mk.injEq, Bool.and_eq_true, decide_eq_true_eq]
  constructor
  · rintro ⟨a, b, ⟨hm, hk, hw⟩, rfl, rfl⟩
    rw [Nat.sub_add_cancel hk]
    exact ⟨hw, hm⟩
  · rintro ⟨hw, hm⟩
    exact ⟨_, _, ⟨hm, by omega, hw⟩, by omega, rfl⟩

theorem FrameBuffer.lit_scrollDown (fb : FrameBuffer) (d h c r : Nat) :
    FrameBuffer.lit (FrameBuffer.scrollDown fb d h) c r =
      (decide (r < h) && decide (d ≤ r) && FrameBuffer.lit fb c (r - d)) := by
  rw [Bool.eq_iff_iff]
  simp only [FrameBuffer.lit_iff, FrameBuffer.scrollDown, List.mem_filter, List.mem_map, Prod.exists,
    Prod.mk.injEq, Bool.and_eq_true, decide_eq_true_eq]
  constructor
  · rintro ⟨⟨a, b, hm, rfl, rfl⟩, hw⟩
    exact ⟨⟨hw, by omega⟩, by rwa [Nat.add_sub_cancel]⟩
  · rintro ⟨⟨hw, hk⟩, hm⟩
    exact ⟨⟨_, _, hm, rfl, by omega⟩, hw⟩

/-! ## The canonical form -/

theorem FrameBuffer.pairwise_insert (fb : FrameBuffer) (p : Nat × Nat)
    (hf : fb.Pairwise FrameBuffer.before) (hp : p ∉ fb) :
    (FrameBuffer.insert fb p).Pairwise FrameBuffer.before := by
  induction fb with
  | nil => simp [FrameBuffer.insert]
  | cons a fb ih =>
    rw [List.pairwise_cons] at hf
    simp only [List.mem_cons, not_or] at hp
    unfold FrameBuffer.insert
    split
    · next hlt =>
      refine List.pairwise_cons.2 ⟨?_, List.pairwise_cons.2 hf⟩
      intro d hd
      rcases List.mem_cons.1 hd with rfl | hd
      · exact hlt
      · have := hf.1 d hd
        simp only [FrameBuffer.before] at *
        omega
    · next hlt =>
      refine List.pairwise_cons.2 ⟨?_, ih hf.2 hp.2⟩
      intro d hd
      rcases (FrameBuffer.mem_insert fb p d).1 hd with rfl | hd
      · have hne : ¬ (d.1 = a.1 ∧ d.2 = a.2) := fun h => hp.1 (Prod.ext h.1 h.2)
        simp only [FrameBuffer.before] at *
        omega
      · exact hf.1 d hd

theorem FrameBuffer.wf_flip (w h : Nat) (fb : FrameBuffer) (c r : Nat) (hc : c < w) (hr : r < h)
    (hf : FrameBuffer.wf w h fb) : FrameBuffer.wf w h (FrameBuffer.flip fb c r) := by
  refine ⟨?_, fun p hp => ?_⟩
  · unfold FrameBuffer.flip
    split
    · exact hf.1.filter _
    · next hn =>
      rw [FrameBuffer.lit_iff] at hn
      exact FrameBuffer.pairwise_insert _ _ hf.1 hn
  · rw [FrameBuffer.mem_flip] at hp
    split at hp
    · next hq => subst hq; exact ⟨hc, hr⟩
    · exact hf.2 p hp

theorem FrameBuffer.wf_nil (w h : Nat) : FrameBuffer.wf w h [] := by simp [FrameBuffer.wf]

theorem FrameBuffer.wf_scrollRight (w h : Nat) (fb : FrameBuffer) (k : Nat)
    (hf : FrameBuffer.wf w h fb) : FrameBuffer.wf w h (FrameBuffer.scrollRight fb k w) := by
  refine ⟨List.Pairwise.filter _ ((List.pairwise_map).2 (hf.1.imp ?_)), fun p hp => ?_⟩
  · intro a b hab; simp only [FrameBuffer.before] at *; omega
  · simp only [FrameBuffer.scrollRight, List.mem_filter, List.mem_map, decide_eq_true_eq] at hp
    obtain ⟨⟨a, ha, rfl⟩, hw⟩ := hp
    exact ⟨hw, (hf.2 a ha).2⟩

theorem FrameBuffer.wf_scrollLeft (w h : Nat) (fb : FrameBuffer) (k : Nat)
    (hf : FrameBuffer.wf w h fb) : FrameBuffer.wf w h (FrameBuffer.scrollLeft fb k w) := by
  refine ⟨(List.pairwise_map).2 ((hf.1.filter _).imp_of_mem ?_), fun p hp => ?_⟩
  · intro a b ha hb hab
    simp only [List.mem_filter, decide_eq_true_eq] at ha hb
    simp only [FrameBuffer.before] at *
    omega
  · simp only [FrameBuffer.scrollLeft, List.mem_map, List.mem_filter, decide_eq_true_eq] at hp
    obtain ⟨a, ⟨ha, -⟩, rfl⟩ := hp
    have := hf.2 a ha
    exact ⟨by simp only; omega, this.2⟩

theorem FrameBuffer.wf_scrollDown (w h : Nat) (fb : FrameBuffer) (d : Nat)
    (hf : FrameBuffer.wf w h fb) : FrameBuffer.wf w h (FrameBuffer.scrollDown fb d h) := by
  refine ⟨List.Pairwise.filter _ ((List.pairwise_map).2 (hf.1.imp ?_)), fun p hp => ?_⟩
  · intro a b hab; simp only [FrameBuffer.before] at *; omega
  · simp only [FrameBuffer.scrollDown, List.mem_filter, List.mem_map, decide_eq_true_eq] at hp
    obtain ⟨⟨a, ha, rfl⟩, hw⟩ := hp
    exact ⟨(hf.2 a ha).1, hw⟩

/-- Canonical buffers that agree on every cell are equal data. -/
theorem FrameBuffer.ext_of_lit (w h : Nat) (fb gb : FrameBuffer) (hf : FrameBuffer.wf w h fb)
    (hg : FrameBuffer.wf w h gb) (he : ∀ c r, FrameBuffer.lit fb c r = FrameBuffer.lit gb c r) :
    fb = gb := by
  have nd : ∀ (fb : FrameBuffer), FrameBuffer.wf w h fb → fb.Nodup := fun fb hw =>
    hw.1.imp (by intro a b h e; subst e; simp only [FrameBuffer.before] at h; omega)
  refine ((List.perm_ext_iff_of_nodup (nd _ hf) (nd _ hg)).2 fun p => ?_).eq_of_pairwise
    (fun a b _ _ h1 h2 => ?_) hf.1 hg.1
  · rw [← FrameBuffer.lit_iff fb p.1 p.2, ← FrameBuffer.lit_iff gb p.1 p.2, he]
  · simp only [FrameBuffer.before] at h1 h2; omega

/-! ## Drawing a list of cells (R270) -/

theorem plotCells_foldl (cells : List (Nat × Nat)) (b : Blit) (hnd : cells.Nodup) :
    (∀ c r, FrameBuffer.lit (cells.foldl Blit.plotCell b).fb c r =
      (FrameBuffer.lit b.fb c r ^^ decide ((c, r) ∈ cells))) ∧
    (cells.foldl Blit.plotCell b).hit = (b.hit || cells.any fun p => FrameBuffer.lit b.fb p.1 p.2) := by
  induction cells generalizing b with
  | nil => simp
  | cons p cells ih =>
    rw [List.nodup_cons] at hnd
    obtain ⟨ih1, ih2⟩ := ih (b.plotCell p) hnd.2
    refine ⟨fun c r => ?_, ?_⟩
    · rw [List.foldl_cons, ih1]
      simp only [Blit.plotCell, FrameBuffer.lit_flip, List.mem_cons]
      by_cases hp : (c, r) = p
      · subst hp; simp [hnd.1]
      · simp [hp]
    · rw [List.foldl_cons, ih2]
      simp only [Blit.plotCell, List.any_cons, Bool.or_assoc]
      congr 2
      rw [Bool.eq_iff_iff, List.any_eq_true, List.any_eq_true]
      refine exists_congr fun q => and_congr_right fun hq => ?_
      have hne : q ≠ p := fun e => hnd.1 (e ▸ hq)
      rw [FrameBuffer.lit_flip]
      simp [hne]

/-- Everything drawing a list of distinct cells does: it turns those cells over, leaves every other cell
alone, and the collision bit says whether one of them was lit. -/
theorem plotCells_spec (fb : FrameBuffer) (cells : List (Nat × Nat)) (hnd : cells.Nodup) :
    (∀ c r, FrameBuffer.lit (plotCells fb cells).fb c r =
      (FrameBuffer.lit fb c r ^^ decide ((c, r) ∈ cells))) ∧
    (plotCells fb cells).hit = cells.any fun p => FrameBuffer.lit fb p.1 p.2 := by
  simpa [plotCells] using plotCells_foldl cells ⟨fb, false⟩ hnd

theorem plotCells_wf (w h : Nat) (cells : List (Nat × Nat)) (b : Blit) (hf : FrameBuffer.wf w h b.fb)
    (hc : ∀ p ∈ cells, p.1 < w ∧ p.2 < h) :
    FrameBuffer.wf w h (cells.foldl Blit.plotCell b).fb := by
  induction cells generalizing b with
  | nil => exact hf
  | cons p cells ih =>
    have hp := hc p (by simp)
    exact ih _ (FrameBuffer.wf_flip w h _ _ _ hp.1 hp.2 hf) (fun q hq => hc q (by simp [hq]))

/-! ## The cells of a sprite (R261, R269) -/

/-- The logical pixel of a cell, for a grid of positive scale. -/
theorem Geometry.mem_block (g : Geometry) (lx ly c r : Nat) (hs : 0 < g.scale) :
    (c, r) ∈ g.block lx ly ↔ c / g.scale = lx ∧ r / g.scale = ly := by
  simp only [Geometry.block, List.mem_flatMap, List.mem_map, List.mem_range, Prod.mk.injEq]
  constructor
  · rintro ⟨dy, hdy, dx, hdx, rfl, rfl⟩
    rw [Nat.mul_add_div hs, Nat.mul_add_div hs, Nat.div_eq_of_lt hdx, Nat.div_eq_of_lt hdy]
    simp
  · rintro ⟨rfl, rfl⟩
    exact ⟨r % g.scale, Nat.mod_lt _ hs, c % g.scale, Nat.mod_lt _ hs, Nat.div_add_mod _ _, Nat.div_add_mod _ _⟩

theorem Geometry.nodup_block (g : Geometry) (lx ly : Nat) : (g.block lx ly).Nodup := by
  unfold Geometry.block
  rw [List.nodup_flatMap]
  refine ⟨fun dy _ => List.Nodup.map ?_ List.nodup_range, ?_⟩
  · intro a b hab; simp at hab; exact hab
  · refine List.nodup_range.imp ?_
    intro a b hab p hp hq
    simp only [List.mem_map] at hp hq
    obtain ⟨_, _, rfl⟩ := hp
    obtain ⟨_, _, hq⟩ := hq
    simp only [Prod.mk.injEq] at hq
    omega

theorem Sprite.mem_rowCells (p : Sprite) (g : Geometry) (k : Nat) (bits : Word) (c r : Nat)
    (hs : 0 < g.scale) :
    (c, r) ∈ p.rowCells g k bits ↔
      r / g.scale = p.cy + k ∧ r / g.scale < g.lh ∧ p.cx ≤ c / g.scale ∧ c / g.scale < p.cx + p.width ∧
        c / g.scale < g.lw ∧ bits.getLsbD (p.width - 1 - (c / g.scale - p.cx)) = true := by
  unfold Sprite.rowCells
  split
  · next hly =>
    simp only [List.mem_flatMap, List.mem_range, Bool.and_eq_true, decide_eq_true_eq]
    constructor
    · rintro ⟨j, hj, hm⟩
      split at hm
      · next hb =>
        rw [Geometry.mem_block _ _ _ _ _ hs] at hm
        obtain ⟨h1, h2⟩ := hm
        rw [h1, h2, Nat.add_sub_cancel_left]
        exact ⟨rfl, hly, by omega, by omega, hb.2, hb.1⟩
      · simp at hm
    · rintro ⟨h1, h2, h3, h4, h5, h6⟩
      refine ⟨c / g.scale - p.cx, by omega, ?_⟩
      rw [Nat.add_sub_cancel' h3, if_pos ⟨h6, h5⟩, Geometry.mem_block _ _ _ _ _ hs]
      exact ⟨rfl, h1⟩
  · simp only [List.not_mem_nil, false_iff]
    rintro ⟨h1, h2, -⟩
    omega

/-- The cells a draw flips: those whose logical pixel is on the grid, inside the sprite and under a set
bit of its row, the leftmost pixel being bit `width-1`. -/
theorem Sprite.mem_cells (p : Sprite) (g : Geometry) (c r : Nat) (hs : 0 < g.scale) :
    (c, r) ∈ p.cells g ↔
      p.cy ≤ r / g.scale ∧ r / g.scale < p.cy + p.rows.length ∧ r / g.scale < g.lh ∧
        p.cx ≤ c / g.scale ∧ c / g.scale < p.cx + p.width ∧ c / g.scale < g.lw ∧
          (p.rows.getD (r / g.scale - p.cy) 0).getLsbD (p.width - 1 - (c / g.scale - p.cx)) = true := by
  simp only [Sprite.cells, List.mem_flatMap, List.mem_range, Sprite.mem_rowCells _ _ _ _ _ _ hs]
  constructor
  · rintro ⟨k, hk, h1, h2, h3, h4, h5, h6⟩
    have hk' : r / g.scale - p.cy = k := by omega
    rw [hk']
    exact ⟨by omega, by omega, h2, h3, h4, h5, h6⟩
  · rintro ⟨h0, h1, h2, h3, h4, h5, h6⟩
    exact ⟨r / g.scale - p.cy, by omega, by omega, h2, h3, h4, h5, h6⟩

theorem Sprite.nodup_rowCells (p : Sprite) (g : Geometry) (k : Nat) (bits : Word) (hs : 0 < g.scale) :
    (p.rowCells g k bits).Nodup := by
  unfold Sprite.rowCells
  split
  · rw [List.nodup_flatMap]
    refine ⟨fun j _ => ?_, List.nodup_range.imp ?_⟩
    · split
      · exact Geometry.nodup_block _ _ _
      · exact List.nodup_nil
    · rintro a b hab ⟨c, r⟩ hp hq
      dsimp only at hp hq
      split at hp
      · split at hq
        · rw [Geometry.mem_block _ _ _ _ _ hs] at hp hq
          omega
        · simp at hq
      · simp at hp
  · exact List.nodup_nil

theorem Sprite.nodup_cells (p : Sprite) (g : Geometry) (hs : 0 < g.scale) : (p.cells g).Nodup := by
  unfold Sprite.cells
  rw [List.nodup_flatMap]
  refine ⟨fun k _ => Sprite.nodup_rowCells _ _ _ _ hs, List.nodup_range.imp ?_⟩
  rintro a b hab ⟨c, r⟩ hp hq
  simp only at hp hq
  rw [Sprite.mem_rowCells _ _ _ _ _ _ hs] at hp hq
  omega

theorem State.geometry_scale_pos (s : State) : 0 < s.geometry.scale := by
  unfold State.geometry
  split <;> decide

/-- The logical grid covers the buffer exactly (R269). -/
theorem State.geometry_covers (s : State) :
    s.geometry.scale * s.geometry.lw = displayWidth s.variant ∧
      s.geometry.scale * s.geometry.lh = displayHeight s.variant := by
  unfold State.geometry displayWidth displayHeight
  cases hv : s.variant <;> cases hh : s.highRes <;> simp_all

theorem Sprite.cells_inside (p : Sprite) (s : State) (q : Nat × Nat) (hq : q ∈ p.cells s.geometry) :
    q.1 < displayWidth s.variant ∧ q.2 < displayHeight s.variant := by
  obtain ⟨c, r⟩ := q
  have hs := s.geometry_scale_pos
  rw [Sprite.mem_cells _ _ _ _ hs] at hq
  obtain ⟨hw, hh⟩ := s.geometry_covers
  obtain ⟨-, -, h1, -, -, h2, -⟩ := hq
  rw [Nat.div_lt_iff_lt_mul hs] at h1 h2
  rw [← hw, ← hh, Nat.mul_comm, Nat.mul_comm s.geometry.scale]
  exact ⟨h2, h1⟩

theorem Sprite.rowsBelow_eq (p : Sprite) (g : Geometry) (h : p.cy < g.lh) :
    p.rowsBelow g = p.cy + p.rows.length - g.lh := by
  unfold Sprite.rowsBelow
  induction p.rows.length with
  | zero => simp; omega
  | succ n ih =>
    rw [List.range_succ, List.countP_append, ih]
    by_cases hn : g.lh ≤ p.cy + n <;> simp [hn] <;> omega

/-- A draw changes the buffer, `updated` and `VF`, and nothing else. -/
theorem State.draw_eq (s : State) (x y n : Nibble) :
    s.draw x y n = { s with fb := (s.draw x y n).fb, v := (s.draw x y n).v, updated := true } := rfl

end Sys2Proof.Machine
end

