-- ==== Sys2Proof/Laws/Memory.lean ====
section
/-! SUPPORT. Memory: what a read answers after a write (20_memory R63, R71), and that every memory
operation keeps the canonical form. -/

namespace Sys2Proof.Machine

theorem Memory.read_erase (m : Memory) (a b : Nat) :
    Memory.read (Memory.erase m a) b = if b = a then Memory.unlisted else Memory.read m b := by
  induction m with
  | nil => simp [Memory.erase, Memory.read]
  | cons c m ih =>
    unfold Memory.erase at ih ⊢
    by_cases hc : c.1 = a
    · simp only [List.filter_cons, hc, bne_self_eq_false, Bool.false_eq_true, if_false, ih, Memory.read]
      split <;> simp_all [eq_comm]
    · simp only [List.filter_cons, bne_iff_ne, ne_eq, hc, not_false_eq_true, if_true, Memory.read, ih]
      split <;> simp_all

theorem Memory.read_insert (m : Memory) (a b : Nat) (v : Byte) (h : ∀ c ∈ m, c.1 ≠ a) :
    Memory.read (Memory.insert m a v) b = if b = a then v else Memory.read m b := by
  induction m with
  | nil => simp [Memory.insert, Memory.read, eq_comm]
  | cons c m ih =>
    have hc : c.1 ≠ a := h c (by simp)
    have ih := ih (fun d hd => h d (by simp [hd]))
    unfold Memory.insert
    split
    · simp only [Memory.read, eq_comm]
    · simp only [Memory.read, ih]
      split <;> simp_all

/-- A read after a write: the value written at the same address, the old value everywhere else. -/
theorem Memory.read_write (m : Memory) (a b : Nat) (v : Byte) :
    Memory.read (Memory.write m a v) b = if b = a then v else Memory.read m b := by
  unfold Memory.write
  split
  · next h => rw [Memory.read_erase, h]
  · rw [Memory.read_insert _ _ _ _ (by simp [Memory.erase]), Memory.read_erase]
    split <;> rfl

theorem Memory.mem_insert (m : Memory) (a : Nat) (v : Byte) (d : Host.Cell) :
    d ∈ Memory.insert m a v ↔ d = (a, v) ∨ d ∈ m := by
  induction m with
  | nil => simp [Memory.insert]
  | cons c m ih =>
    unfold Memory.insert
    split <;> simp [ih, or_left_comm]

theorem Memory.pairwise_insert (m : Memory) (a : Nat) (v : Byte)
    (hm : m.Pairwise (fun c d => c.1 < d.1)) (h : ∀ c ∈ m, c.1 ≠ a) :
    (Memory.insert m a v).Pairwise (fun c d => c.1 < d.1) := by
  induction m with
  | nil => simp [Memory.insert]
  | cons c m ih =>
    rw [List.pairwise_cons] at hm
    have hc : c.1 ≠ a := h c (by simp)
    unfold Memory.insert
    split
    · next hlt =>
      refine List.pairwise_cons.2 ⟨?_, List.pairwise_cons.2 hm⟩
      intro d hd
      rcases List.mem_cons.1 hd with rfl | hd
      · exact hlt
      · exact lt_trans hlt (hm.1 d hd)
    · refine List.pairwise_cons.2 ⟨?_, ih hm.2 (fun d hd => h d (by simp [hd]))⟩
      intro d hd
      rcases (Memory.mem_insert m a v d).1 hd with rfl | hd
      · simp only; omega
      · exact hm.1 d hd

/-- A write inside the address space keeps the canonical form. -/
theorem Memory.wf_write (m : Memory) (a : Nat) (v : Byte) (ha : a < memorySize) (h : Memory.wf m) :
    Memory.wf (Memory.write m a v) := by
  have he : Memory.wf (Memory.erase m a) :=
    ⟨h.1.filter _, fun c hc => h.2 c (List.mem_of_mem_filter hc)⟩
  unfold Memory.write
  split
  · exact he
  · next hv =>
    refine ⟨Memory.pairwise_insert _ _ _ he.1 (by simp [Memory.erase]), fun c hc => ?_⟩
    rcases (Memory.mem_insert _ _ _ _).1 hc with rfl | hc
    · exact ⟨ha, hv⟩
    · exact he.2 c hc

/-- Canonical memories that answer every read alike are equal data. -/
theorem Memory.ext_of_read (m n : Memory) (hm : Memory.wf m) (hn : Memory.wf n)
    (h : ∀ a, Memory.read m a = Memory.read n a) : m = n := by
  have key : ∀ (m : Memory), Memory.wf m → ∀ c : Host.Cell,
      c ∈ m ↔ (Memory.read m c.1 = c.2 ∧ c.2 ≠ Memory.unlisted) := by
    intro m
    induction m with
    | nil => simp [Memory.read]
    | cons d m ih =>
      intro hw c
      obtain ⟨hp, hq⟩ := hw
      rw [List.pairwise_cons] at hp
      have ih := ih ⟨hp.2, fun e he => hq e (by simp [he])⟩ c
      simp only [List.mem_cons, ih, Memory.read]
      by_cases hdc : d.1 = c.1
      · rw [if_pos hdc]
        constructor
        · rintro (rfl | hc)
          · exact ⟨rfl, (hq c (by simp)).2⟩
          · have := hp.1 c (ih.2 hc); omega
        · rintro ⟨h1, -⟩
          exact .inl (Prod.ext hdc.symm h1.symm)
      · rw [if_neg hdc]
        constructor
        · rintro (rfl | hc)
          · exact absurd rfl hdc
          · exact hc
        · exact .inr
  have hperm : ∀ c, c ∈ m ↔ c ∈ n := fun c => by rw [key m hm, key n hn, h]
  have nd : ∀ (m : Memory), Memory.wf m → m.Nodup := fun m hw => hw.1.imp (by intro a b h e; simp [e] at h)
  exact ((List.perm_ext_iff_of_nodup (nd m hm) (nd n hn)).2 hperm).eq_of_pairwise
    (fun a b _ _ h1 h2 => absurd h1 (by omega)) hm.1 hn.1

/-! ## The state's view -/

/-- The address of a read is reduced modulo 4096 (R63). -/
theorem State.readByte_mod (s : State) (a : Nat) : s.readByte (a % 4096) = s.readByte a := by
  simp [State.readByte]

@[simp] theorem State.writeByte_readByte (s : State) (a b : Nat) (v : Byte) :
    (s.writeByte a v).readByte b = if b % 4096 = a % 4096 then v else s.readByte b := by
  simp [State.readByte, State.writeByte, Memory.read_write]

/-- The bytes after a run of bytes has been written at `a`: byte `k` of the run at `a + k` modulo 4096,
and the old byte everywhere else. -/
theorem State.readByte_writeBytes (bs : List Byte) (s : State) (a b : Nat) (h : bs.length ≤ 4096) :
    (s.writeBytes a bs).readByte b = (bs[(b + 4096 - a % 4096) % 4096]?).getD (s.readByte b) := by
  induction bs generalizing s a with
  | nil => simp [State.writeBytes]
  | cons x bs ih =>
    simp only [List.length_cons] at h
    rw [State.writeBytes, ih _ _ (by omega), State.writeByte_readByte]
    by_cases hab : b % 4096 = a % 4096
    · have h0 : (b + 4096 - a % 4096) % 4096 = 0 := by omega
      have h1 : bs.length ≤ (b + 4096 - (a + 1) % 4096) % 4096 := by omega
      simp [h0, hab, h1]
    · have h1 : (b + 4096 - a % 4096) % 4096 = (b + 4096 - (a + 1) % 4096) % 4096 + 1 := by omega
      simp [h1, hab]

/-- A run of bytes changes memory alone. -/
theorem State.writeBytes_eq (bs : List Byte) (s : State) (a : Nat) :
    s.writeBytes a bs = { s with mem := (s.writeBytes a bs).mem } := by
  induction bs generalizing s a with
  | nil => rfl
  | cons x bs ih => rw [State.writeBytes, ih]; rfl

theorem State.writeBytes_wf (bs : List Byte) (s : State) (a : Nat) (h : Memory.wf s.mem) :
    Memory.wf (s.writeBytes a bs).mem := by
  induction bs generalizing s a with
  | nil => exact h
  | cons x bs ih => exact ih _ _ (Memory.wf_write _ _ _ (Nat.mod_lt _ (by decide)) h)

theorem State.writeByte_wf (s : State) (a : Nat) (b : Byte) (h : Memory.wf s.mem) :
    Memory.wf (s.writeByte a b).mem := Memory.wf_write _ _ _ (Nat.mod_lt _ (by decide)) h

theorem State.resetFor_mem_wf (v : Variant) : Memory.wf (State.resetFor v).mem := by
  simp [State.resetFor, Memory.wf]

theorem State.reset_mem_wf : Memory.wf State.reset.mem := State.resetFor_mem_wf _

end Sys2Proof.Machine
end

