-- ==== Sys2Proof/Laws/Registers.lean ====
section
/-! SUPPORT. Registers, banks, stack, control and status: one lemma for each shared operation that says
everything it can do. -/

namespace Sys2Proof.Machine

variable (s : State)

/-! ## General registers and banks (R21, R33) -/

@[simp] theorem State.setV_getV (x y : Nibble) (b : Byte) :
    (s.setV x b).getV y = if y = x then b else s.getV y := by
  simp [State.getV, State.setV, Vector.getElem_set, BitVec.toNat_inj, eq_comm]

theorem writeBank_getElem (bank : Vector Byte 16) (f : Nat → Byte) (n k : Nat) (hk : k < 16) :
    (writeBank bank f n)[k] = if k < n then f k else bank[k] := by
  induction n with
  | zero => simp [writeBank]
  | succ n ih =>
    rw [writeBank, Vector.getElem_setIfInBounds, ih]
    by_cases h : n = k
    · simp [h]
    · rw [if_neg h]
      split <;> split <;> first | rfl | omega

@[simp] theorem State.setVUpTo_getV (x y : Nibble) (f : Nat → Byte) :
    (s.setVUpTo x f).getV y = if y ≤ x then f y.toNat else s.getV y := by
  simp only [State.getV, State.setVUpTo, writeBank_getElem, Nat.lt_succ_iff, BitVec.le_def]

@[simp] theorem State.setUfUpTo_getUf (x y : Nibble) (f : Nat → Byte) :
    (s.setUfUpTo x f).getUf y = if y ≤ x then f y.toNat else s.getUf y := by
  simp only [State.getUf, State.setUfUpTo, writeBank_getElem, Nat.lt_succ_iff, BitVec.le_def]

/-- States that hold the same registers one by one hold the same register file. -/
theorem State.v_ext {s t : State} (h : ∀ x, s.getV x = t.getV x) : s.v = t.v := by
  ext k hk
  have := h (BitVec.ofNat 4 k)
  simp only [State.getV, BitVec.toNat_ofNat, Nat.mod_eq_of_lt (show k < 2 ^ 4 from hk)] at this
  rw [this]

/-- The result and, last, the flag (R180). -/
theorem State.setResultFlag_getV (x y : Nibble) (r f : Byte) :
    (s.setResultFlag x r f).getV y = if y = vf then f else if y = x then r else s.getV y := by
  simp [State.setResultFlag]

theorem State.setResultFlag_eq (x : Nibble) (r f : Byte) :
    s.setResultFlag x r f = { s with v := (s.setResultFlag x r f).v } := rfl

theorem State.setLogicResult_getV (x y : Nibble) (r : Byte) :
    (s.setLogicResult x r).getV y =
      if s.q.logicClearsVf ∧ y = vf then 0 else if y = x then r else s.getV y := by
  unfold State.setLogicResult
  split
  · next h => simp [State.setResultFlag_getV, h]
  · next h => simp [h]

theorem State.setLogicResult_eq (x : Nibble) (r : Byte) :
    s.setLogicResult x r = { s with v := (s.setLogicResult x r).v } := by
  unfold State.setLogicResult
  split <;> rfl

theorem State.postIncrementI_eq (x : Nibble) :
    s.postIncrementI x =
      { s with i := if s.q.ldstIncrementsI then s.i + BitVec.ofNat 16 (x.toNat + 1) else s.i } := by
  unfold State.postIncrementI
  split <;> rfl

/-! ## Control (R24, R123, R159) -/

/-- A write to `pc` leaves it inside the address space (R24). -/
theorem State.setPc_lt (t : Word) : (s.setPc t).pc.toNat < 4096 := by
  simp only [State.setPc_pc, BitVec.toNat_umod]
  exact Nat.mod_lt _ (by decide)

theorem State.skipIf_eq (c : Bool) :
    s.skipIf c = { s with pc := if c then (s.pc + 2) % 4096 else s.pc } := by
  unfold State.skipIf State.skip State.setPc
  split <;> rfl

/-! ## The call stack (R28) -/

/-- Everything a push can do. -/
theorem State.push_cases (r : Word) :
    (s.sp < 16 ∧ s.push r = some { s with stack := s.stack ++ [r] }) ∨ (16 ≤ s.sp ∧ s.push r = none) := by
  unfold State.push
  split
  · next h => exact .inl ⟨h, rfl⟩
  · next h => exact .inr ⟨not_lt.1 h, rfl⟩

/-- Everything a pop can do. -/
theorem State.pop_cases :
    (s.stack = [] ∧ s.pop = (0x200, s)) ∨
      ∃ (rest : List Word) (r : Word), s.stack = rest ++ [r] ∧ s.pop = (r, { s with stack := rest }) := by
  unfold State.pop
  rcases List.eq_nil_or_concat s.stack with h | ⟨rest, r, h⟩
  · simp [h, programBase]
  · simp [h]

/-- What was pushed is popped. -/
theorem State.pop_push (r : Word) (t : State) (h : s.push r = some t) : t.pop = (r, s) := by
  rcases s.push_cases r with ⟨-, hp⟩ | ⟨-, hp⟩ <;> rw [hp] at h
  · cases h; simp [State.pop]
  · cases h

/-! ## The second table (R96) -/

@[simp] theorem State.extendedOnly_extended (w : Word) (t : State) (h : s.variant = .extended) :
    s.extendedOnly w t = t := by simp [State.extendedOnly, h]

@[simp] theorem State.extendedOnly_classic (w : Word) (t : State) (h : s.variant = .classic) :
    s.extendedOnly w t = s.raise (.illegalInstruction w) := by simp [State.extendedOnly, h]

/-! ## Key masks (R13, R304) -/

/-- The lowest set bit of a non-zero mask: it is set, and no lower one is. -/
theorem lowbit_spec (m : Word) (h : m ≠ 0) :
    lowbit m < 16 ∧ m.getLsbD (lowbit m) = true ∧ ∀ k < lowbit m, m.getLsbD k = false := by
  have hex : ∃ k ∈ List.range 16, m.getLsbD k = true := by
    by_contra hn
    push Not at hn
    apply h
    apply BitVec.eq_of_getLsbD_eq
    intro i hi
    simpa using hn i (List.mem_range.2 hi)
  obtain ⟨k, hk⟩ := Option.isSome_iff_exists.1 (List.find?_isSome.2 hex)
  have hl : lowbit m = k := by simp [lowbit, hk]
  rw [hl]
  refine ⟨List.mem_range.1 (List.mem_of_find?_eq_some hk), by simpa using List.find?_some hk, ?_⟩
  intro j hj
  obtain ⟨-, as, bs, hab, hno⟩ := List.find?_eq_some_iff_append.1 hk
  have hlen : as.length = k := by
    have h1 : (List.range 16)[as.length]? = some k := by rw [hab]; simp
    obtain ⟨hlt, h2⟩ := List.getElem?_eq_some_iff.1 h1
    simpa using h2
  have h3 : as[j]? = some j := by
    have h1 : (List.range 16)[j]? = some j := by
      have : k < 16 := List.mem_range.1 (List.mem_of_find?_eq_some hk)
      rw [List.getElem?_range (by omega)]
    rw [hab, List.getElem?_append_left (by omega)] at h1
    exact h1
  simpa using hno j (List.mem_of_getElem? h3)

/-- On a numeric decrease of the mask some key was released (R304). -/
theorem released_ne_zero (cur latch : Word) (h : cur < latch) : latch &&& ~~~cur ≠ 0 := by
  intro h0
  have hle : latch.toNat ≤ cur.toNat := by
    have hsub : latch = latch &&& cur := by
      apply BitVec.eq_of_getLsbD_eq
      intro i hi
      have := congrArg (fun w => w.getLsbD i) h0
      simp only [BitVec.getLsbD_and, BitVec.getLsbD_not, hi, decide_true, Bool.true_and] at this ⊢
      simpa using this
    rw [hsub, BitVec.toNat_and]
    exact Nat.and_le_right
  rw [BitVec.lt_def] at h
  omega

end Sys2Proof.Machine
end

