-- ==== Sys2Proof/Laws/Exec.lean ====
section
/-! SUPPORT. What `exec` answers for each instruction, as a term over the shared operations, and what one
step does for each command, so that no later proof unfolds `exec`, `step` or a meaning. -/

namespace Sys2Proof.Machine

variable (s : State)

theorem exec_cls : exec (.cls) s =
    .next (s.setDisplay []) := rfl
theorem exec_ret : exec (.ret) s =
    .next (s.pop.2.setPc s.pop.1) := rfl
theorem exec_jp (nnn : Addr) : exec (.jp nnn) s =
    .next (s.setPc (addrWord nnn)) := rfl
theorem exec_seImm (x : Nibble) (nn : Byte) : exec (.seImm x nn) s =
    .next (s.skipIf (s.getV x == nn)) := rfl
theorem exec_sneImm (x : Nibble) (nn : Byte) : exec (.sneImm x nn) s =
    .next (s.skipIf (s.getV x != nn)) := rfl
theorem exec_seReg (x : Nibble) (y : Nibble) : exec (.seReg x y) s =
    .next (s.skipIf (s.getV x == s.getV y)) := rfl
theorem exec_ldImm (x : Nibble) (nn : Byte) : exec (.ldImm x nn) s =
    .next (s.setV x nn) := rfl
theorem exec_addImm (x : Nibble) (nn : Byte) : exec (.addImm x nn) s =
    .next (s.setV x (s.getV x + nn)) := rfl
theorem exec_ldReg (x : Nibble) (y : Nibble) : exec (.ldReg x y) s =
    .next (s.setV x (s.getV y)) := rfl
theorem exec_orReg (x : Nibble) (y : Nibble) : exec (.orReg x y) s =
    .next (s.setLogicResult x (s.getV x ||| s.getV y)) := rfl
theorem exec_andReg (x : Nibble) (y : Nibble) : exec (.andReg x y) s =
    .next (s.setLogicResult x (s.getV x &&& s.getV y)) := rfl
theorem exec_xorReg (x : Nibble) (y : Nibble) : exec (.xorReg x y) s =
    .next (s.setLogicResult x (s.getV x ^^^ s.getV y)) := rfl
theorem exec_addReg (x : Nibble) (y : Nibble) : exec (.addReg x y) s =
    .next (s.setResultFlag x (s.getV x + s.getV y) (carryFlag (s.getV x) (s.getV y))) := rfl
theorem exec_subReg (x : Nibble) (y : Nibble) : exec (.subReg x y) s =
    .next (s.setResultFlag x (s.getV x - s.getV y) (noBorrowFlag (s.getV x) (s.getV y))) := rfl
theorem exec_shr (x : Nibble) (y : Nibble) : exec (.shr x y) s =
    .next (s.setResultFlag x (s.shiftSource x y >>> 1) (shiftedOutRight (s.shiftSource x y))) := rfl
theorem exec_subnReg (x : Nibble) (y : Nibble) : exec (.subnReg x y) s =
    .next (s.setResultFlag x (s.getV y - s.getV x) (noBorrowFlag (s.getV y) (s.getV x))) := rfl
theorem exec_shl (x : Nibble) (y : Nibble) : exec (.shl x y) s =
    .next (s.setResultFlag x (s.shiftSource x y <<< 1) (shiftedOutLeft (s.shiftSource x y))) := rfl
theorem exec_sneReg (x : Nibble) (y : Nibble) : exec (.sneReg x y) s =
    .next (s.skipIf (s.getV x != s.getV y)) := rfl
theorem exec_ldI (nnn : Addr) : exec (.ldI nnn) s =
    .next (s.setI (addrWord nnn)) := rfl
theorem exec_jpOffset (nnn : Addr) : exec (.jpOffset nnn) s =
    .next (s.setPc (addrWord nnn + byteWord (s.jumpOffset nnn))) := rfl
theorem exec_rnd (x : Nibble) (nn : Byte) : exec (.rnd x nn) s =
    .next (s.setV x (s.rnd &&& nn)) := rfl
theorem exec_drw (x : Nibble) (y : Nibble) (n : Nibble) : exec (.drw x y n) s =
    .next (s.draw x y n) := rfl
theorem exec_drw0 (x : Nibble) (y : Nibble) : exec (.drw0 x y) s =
    .next (s.draw x y 0) := rfl
theorem exec_skp (x : Nibble) : exec (.skp x) s =
    .next (s.skipIf (s.keyHeld x)) := rfl
theorem exec_sknp (x : Nibble) : exec (.sknp x) s =
    .next (s.skipIf (!s.keyHeld x)) := rfl
theorem exec_ldVxDt (x : Nibble) : exec (.ldVxDt x) s =
    .next (s.setV x s.dt) := rfl
theorem exec_ldVxK (x : Nibble) : exec (.ldVxK x) s =
    .next (if s.keys < s.latch then (s.setV x (BitVec.ofNat 8 (lowbit (s.latch &&& ~~~s.keys)))).setLatch 0 else (s.setLatch s.keys).setPc (s.pc - 2)) := rfl
theorem exec_ldDtVx (x : Nibble) : exec (.ldDtVx x) s =
    .next (s.setDt (s.getV x)) := rfl
theorem exec_ldStVx (x : Nibble) : exec (.ldStVx x) s =
    .next (s.setSt (s.getV x)) := rfl
theorem exec_addI (x : Nibble) : exec (.addI x) s =
    .next (s.setI (s.i + byteWord (s.getV x))) := rfl
theorem exec_ldF (x : Nibble) : exec (.ldF x) s =
    .next (s.setI (smallGlyphAddr (s.getV x))) := rfl
theorem exec_ldB (x : Nibble) : exec (.ldB x) s =
    .next (s.writeBytes s.i.toNat (bcdDigits (s.getV x))) := rfl
theorem exec_storeRegs (x : Nibble) : exec (.storeRegs x) s =
    .next ((s.writeBytes s.i.toNat (s.firstRegs x)).postIncrementI x) := rfl
theorem exec_loadRegs (x : Nibble) : exec (.loadRegs x) s =
    .next ((s.setVUpTo x (fun k => s.readByte (s.i.toNat + k))).postIncrementI x) := rfl
theorem exec_scd (n : Nibble) : exec (.scd n) s =
    .next (s.extendedOnly (encode (.scd n)) (s.setDisplay (FrameBuffer.scrollDown s.fb (s.scrollRows n) (displayHeight s.variant)))) := rfl
theorem exec_scr : exec (.scr) s =
    .next (s.extendedOnly (encode .scr) (s.setDisplay (FrameBuffer.scrollRight s.fb s.scrollColumns (displayWidth s.variant)))) := rfl
theorem exec_scl : exec (.scl) s =
    .next (s.extendedOnly (encode .scl) (s.setDisplay (FrameBuffer.scrollLeft s.fb s.scrollColumns (displayWidth s.variant)))) := rfl
theorem exec_exit : exec (.exit) s =
    .next (s.extendedOnly (encode .exit) (s.raise .programExited)) := rfl
theorem exec_low : exec (.low) s =
    .next (s.extendedOnly (encode .low) (s.setHighRes false)) := rfl
theorem exec_high : exec (.high) s =
    .next (s.extendedOnly (encode .high) (s.setHighRes true)) := rfl
theorem exec_ldHf (x : Nibble) : exec (.ldHf x) s =
    .next (s.extendedOnly (encode (.ldHf x)) (s.setI (bigGlyphAddr (s.getV x)))) := rfl
theorem exec_saveFlags (x : Nibble) : exec (.saveFlags x) s =
    .next (s.extendedOnly (encode (.saveFlags x)) (s.setUfUpTo x (fun k => s.getV (BitVec.ofNat 4 k)))) := rfl
theorem exec_loadFlags (x : Nibble) : exec (.loadFlags x) s =
    .next (s.extendedOnly (encode (.loadFlags x)) (s.setVUpTo x (fun k => s.getUf (BitVec.ofNat 4 k)))) := rfl

/-- Everything a call can do (R152). -/
theorem exec_call (nnn : Addr) :
    (s.sp < 16 ∧ exec (.call nnn) s =
      .next (State.setPc { s with stack := s.stack ++ [s.pc] } (addrWord nnn))) ∨
    (16 ≤ s.sp ∧ exec (.call nnn) s = .next (s.raise .stackOverflow)) := by
  rcases s.push_cases s.pc with ⟨h, hp⟩ | ⟨h, hp⟩
  · exact .inl ⟨h, by simp only [exec, execCall, hp]⟩
  · exact .inr ⟨h, by simp only [exec, execCall, hp]⟩

/-- No instruction stops: every one answers a next state. -/
theorem exec_next (i : Instr) : ∃ t, exec i s = .next t := by
  cases i
  case call nnn => rcases exec_call s nnn with ⟨-, h⟩ | ⟨-, h⟩ <;> exact ⟨_, h⟩
  all_goals exact ⟨_, rfl⟩

/-! ## One step, by the command -/

theorem step_cons (c : Command) (cs : List Command) (h : s.pending = c :: cs) :
    step s = State.runCommand { s with pending := cs } c := by
  simp only [step, State.runNext, State.nextCommand, h]

theorem step_nil (h : s.pending = []) :
    step s = State.runCommand { s with draws := s.draws + 1 } (Config.freeCommand s.draws) := by
  simp only [step, State.runNext, State.nextCommand, h]

/-- After `stepNext` the next command is a STEP. -/
theorem State.stepNext_cases :
    (∃ k r cs, s.pending = .step k r :: cs ∧ s.stepNext = s) ∨
      s.stepNext = { s with
        pending := .step (Config.freeKeys s.draws) (Config.freeRnd s.draws) :: s.pending, draws := s.draws + 1 } := by
  unfold State.stepNext
  split
  · next k r cs h => exact .inl ⟨k, r, cs, h, rfl⟩
  · exact .inr rfl

/-- Everything a STEP can do (R122, R129). -/
theorem runStep_cases (k : Word) (r : Byte) :
    (s.status.code ≠ .running ∧ s.runStep k r = .next { s with updated := false }) ∨
    (s.status.code = .running ∧ decodeWord s.variant s.fetchWord = none ∧
      s.runStep k r =
        .next ((s.sampleInputs k r).fetchAdvance.raise (.illegalInstruction s.fetchWord))) ∨
    (∃ i, s.status.code = .running ∧ decodeWord s.variant s.fetchWord = some i ∧
      s.runStep k r = exec i (s.sampleInputs k r).fetchAdvance) := by
  unfold State.runStep
  cases h : s.status.code
  case running =>
    cases hd : decodeWord s.variant s.fetchWord with
    | none => exact .inr (.inl ⟨rfl, rfl, rfl⟩)
    | some i => exact .inr (.inr ⟨i, rfl, rfl, rfl⟩)
  all_goals exact .inl ⟨by simp, rfl⟩

/-! ## Runs -/

/-- A run of `k + 1` steps whose first step answers a next state is a run of `k` steps from there. -/
theorem run_next (k : Nat) (u : State) (h : step s = .next u) :
    Host.Core.run Sys2Proof.core (k + 1) s = Host.Core.run Sys2Proof.core k u := by
  have hs : Sys2Proof.core.step s = .next u := h
  exact (Host.Core.run.eq_2 Sys2Proof.core s k).trans (by rw [hs])

/-- A run of `k + 1` steps whose first step is refused is refused. -/
theorem run_refused (k : Nat) (r : Refusal) (h : step s = .refused r) :
    Host.Core.run Sys2Proof.core (k + 1) s = .refused r := by
  have hs : Sys2Proof.core.step s = .refused r := h
  exact (Host.Core.run.eq_2 Sys2Proof.core s k).trans (by rw [hs])

end Sys2Proof.Machine
end

