-- ==== Sys2Proof/Laws/PerInstr.lean ====
section
/-! SUPPORT. The family TableRow, one lemma per constructor of Instr: the encoder's word of an instruction
matches the instruction's row of 30_encoding R95, R96 (`w AND mask = match`). -/

namespace Sys2Proof.Laws

theorem packNNN_and (op : Nibble) (nnn : Addr) : packNNN op nnn &&& 0xF000 = packNNN op 0 := by
  rw [show (0xF000 : Word) = packNNN 0xF 0 from rfl]
  unfold packNNN
  rw [BitVec.and_append, show (0xF : Nibble) = BitVec.allOnes 4 from rfl,
    BitVec.and_allOnes]
  simp

theorem packXNN_and (op x : Nibble) (nn : Byte) : packXNN op x nn &&& 0xF000 = packXNN op 0 0 := by
  rw [show (0xF000 : Word) = packXNN 0xF 0 0 from rfl]
  unfold packXNN
  rw [BitVec.and_append, BitVec.and_append, show (0xF : Nibble) = BitVec.allOnes 4 from rfl,
    BitVec.and_allOnes]
  simp

theorem packXNN_and_function (op x : Nibble) (nn : Byte) : packXNN op x nn &&& 0xF0FF = packXNN op 0 nn := by
  rw [show (0xF0FF : Word) = packXNN 0xF 0 0xFF from rfl]
  unfold packXNN
  rw [BitVec.and_append, BitVec.and_append, show (0xF : Nibble) = BitVec.allOnes 4 from rfl,
    show (0xFF : Byte) = BitVec.allOnes 8 from rfl, BitVec.and_allOnes, BitVec.and_allOnes]
  simp

theorem packXYN_and (op x y n : Nibble) : packXYN op x y n &&& 0xF000 = packXYN op 0 0 0 := by
  rw [show (0xF000 : Word) = packXYN 0xF 0 0 0 from rfl]
  unfold packXYN
  rw [BitVec.and_append, BitVec.and_append, BitVec.and_append, show (0xF : Nibble) = BitVec.allOnes 4 from rfl,
    BitVec.and_allOnes]
  simp

theorem packXYN_and_function (op x y n : Nibble) : packXYN op x y n &&& 0xF00F = packXYN op 0 0 n := by
  rw [show (0xF00F : Word) = packXYN 0xF 0 0 0xF from rfl]
  unfold packXYN
  rw [BitVec.and_append, BitVec.and_append, BitVec.and_append, show (0xF : Nibble) = BitVec.allOnes 4 from rfl,
    BitVec.and_allOnes, BitVec.and_allOnes]
  simp

theorem packXYN_and_n (op x y n : Nibble) : packXYN op x y n &&& 0xFFF0 = packXYN op x y 0 := by
  rw [show (0xFFF0 : Word) = packXYN 0xF 0xF 0xF 0 from rfl]
  unfold packXYN
  rw [BitVec.and_append, BitVec.and_append, BitVec.and_append, show (0xF : Nibble) = BitVec.allOnes 4 from rfl,
    BitVec.and_allOnes, BitVec.and_allOnes, BitVec.and_allOnes]
  simp

end Sys2Proof.Laws

namespace Sys2Proof.Laws.TableRow

/-- The instruction's word matches its row. -/
def Statement (i : Instr) : Prop := encode i &&& i.rowMask = i.rowBits

theorem cls : Statement (Instr.cls) := show _ = _ by decide
theorem ret : Statement (Instr.ret) := show _ = _ by decide
theorem jp (nnn : Addr) : Statement (Instr.jp nnn) := packNNN_and _ _
theorem call (nnn : Addr) : Statement (Instr.call nnn) := packNNN_and _ _
theorem seImm (x : Nibble) (nn : Byte) : Statement (Instr.seImm x nn) := packXNN_and _ _ _
theorem sneImm (x : Nibble) (nn : Byte) : Statement (Instr.sneImm x nn) := packXNN_and _ _ _
theorem seReg (x : Nibble) (y : Nibble) : Statement (Instr.seReg x y) := packXYN_and_function _ _ _ _
theorem ldImm (x : Nibble) (nn : Byte) : Statement (Instr.ldImm x nn) := packXNN_and _ _ _
theorem addImm (x : Nibble) (nn : Byte) : Statement (Instr.addImm x nn) := packXNN_and _ _ _
theorem ldReg (x : Nibble) (y : Nibble) : Statement (Instr.ldReg x y) := packXYN_and_function _ _ _ _
theorem orReg (x : Nibble) (y : Nibble) : Statement (Instr.orReg x y) := packXYN_and_function _ _ _ _
theorem andReg (x : Nibble) (y : Nibble) : Statement (Instr.andReg x y) := packXYN_and_function _ _ _ _
theorem xorReg (x : Nibble) (y : Nibble) : Statement (Instr.xorReg x y) := packXYN_and_function _ _ _ _
theorem addReg (x : Nibble) (y : Nibble) : Statement (Instr.addReg x y) := packXYN_and_function _ _ _ _
theorem subReg (x : Nibble) (y : Nibble) : Statement (Instr.subReg x y) := packXYN_and_function _ _ _ _
theorem shr (x : Nibble) (y : Nibble) : Statement (Instr.shr x y) := packXYN_and_function _ _ _ _
theorem subnReg (x : Nibble) (y : Nibble) : Statement (Instr.subnReg x y) := packXYN_and_function _ _ _ _
theorem shl (x : Nibble) (y : Nibble) : Statement (Instr.shl x y) := packXYN_and_function _ _ _ _
theorem sneReg (x : Nibble) (y : Nibble) : Statement (Instr.sneReg x y) := packXYN_and_function _ _ _ _
theorem ldI (nnn : Addr) : Statement (Instr.ldI nnn) := packNNN_and _ _
theorem jpOffset (nnn : Addr) : Statement (Instr.jpOffset nnn) := packNNN_and _ _
theorem rnd (x : Nibble) (nn : Byte) : Statement (Instr.rnd x nn) := packXNN_and _ _ _
theorem drw (x : Nibble) (y : Nibble) (n : Nibble) : Statement (Instr.drw x y n) := packXYN_and _ _ _ _
theorem drw0 (x : Nibble) (y : Nibble) : Statement (Instr.drw0 x y) := packXYN_and_function _ _ _ _
theorem skp (x : Nibble) : Statement (Instr.skp x) := packXNN_and_function _ _ _
theorem sknp (x : Nibble) : Statement (Instr.sknp x) := packXNN_and_function _ _ _
theorem ldVxDt (x : Nibble) : Statement (Instr.ldVxDt x) := packXNN_and_function _ _ _
theorem ldVxK (x : Nibble) : Statement (Instr.ldVxK x) := packXNN_and_function _ _ _
theorem ldDtVx (x : Nibble) : Statement (Instr.ldDtVx x) := packXNN_and_function _ _ _
theorem ldStVx (x : Nibble) : Statement (Instr.ldStVx x) := packXNN_and_function _ _ _
theorem addI (x : Nibble) : Statement (Instr.addI x) := packXNN_and_function _ _ _
theorem ldF (x : Nibble) : Statement (Instr.ldF x) := packXNN_and_function _ _ _
theorem ldB (x : Nibble) : Statement (Instr.ldB x) := packXNN_and_function _ _ _
theorem storeRegs (x : Nibble) : Statement (Instr.storeRegs x) := packXNN_and_function _ _ _
theorem loadRegs (x : Nibble) : Statement (Instr.loadRegs x) := packXNN_and_function _ _ _
theorem scd (n : Nibble) : Statement (Instr.scd n) := packXYN_and_n _ _ _ _
theorem scr : Statement (Instr.scr) := show _ = _ by decide
theorem scl : Statement (Instr.scl) := show _ = _ by decide
theorem exit : Statement (Instr.exit) := show _ = _ by decide
theorem low : Statement (Instr.low) := show _ = _ by decide
theorem high : Statement (Instr.high) := show _ = _ by decide
theorem ldHf (x : Nibble) : Statement (Instr.ldHf x) := packXNN_and_function _ _ _
theorem saveFlags (x : Nibble) : Statement (Instr.saveFlags x) := packXNN_and_function _ _ _
theorem loadFlags (x : Nibble) : Statement (Instr.loadFlags x) := packXNN_and_function _ _ _

end Sys2Proof.Laws.TableRow
end

