-- ==== Sys2Proof/Tests/Slice0.lean ====
section
/-! SUPPORT. Tests. Expected results are from spec/95_test_vectors.md (W<n>, V<n>) or from the example of
the rule cited, never from the model. Then one witness for the hypotheses of each statement. -/

namespace Sys2Proof.Tests

open Sys2Proof.Machine

/-! ## Helpers -/

/-- The next state of an outcome, if it is one. -/
def nextState : Host.Outcome State Fault Refusal → Option State
  | .next s => some s
  | .fault _ => none
  | .refused _ => none

/-- The refusal of an outcome, if it is one. -/
def refusal : Host.Outcome State Fault Refusal → Option Refusal
  | .next _ => none
  | .fault _ => none
  | .refused r => some r

/-- A state after reset with general registers set. -/
def start (var : Variant) (regs : List (Nibble × Byte)) : State :=
  regs.foldl (fun s r => s.setV r.1 r.2) (State.resetFor var)

/-- One step of `s` with the word placed at `pc` and the STEP's inputs given. -/
def after (s : State) (w : Word) (keys : Word := 0) (rnd : Byte := 0) : Option State :=
  nextState (step (State.withFetchWord { s with pending := [.step keys rnd] } 16 w.toNat))

/-- The state with bytes in memory and `I` at them. -/
def withBytes (s : State) (a : Word) (bytes : List Byte) : State := (s.setI a).writeBytes a.toNat bytes

/-! ## WellFormed: the ill-formed term is refused -/

theorem test_wellFormed_refuses_drw_of_no_rows : (Instr.drw 1 2 0).wellFormed = false := by decide
theorem test_wellFormed_takes_drw0 : (Instr.drw0 1 2).wellFormed = true := by decide
theorem test_legalIn_refuses_second_table_in_classic :
    (Instr.high.legalIn .classic, Instr.high.legalIn .extended) = (false, true) := by decide

/-! ## Decode: every constructor, from words written out from R95 and R96 -/

theorem test_decode_control :
    decodeWord .classic 0x00EE = some .ret ∧ decodeWord .classic 0x1ABC = some (.jp 0xABC) ∧
    decodeWord .classic 0x2ABC = some (.call 0xABC) ∧ decodeWord .classic 0x3A42 = some (.seImm 0xA 0x42) ∧
    decodeWord .classic 0x4A42 = some (.sneImm 0xA 0x42) ∧ decodeWord .classic 0x5120 = some (.seReg 1 2) ∧
    decodeWord .classic 0x9120 = some (.sneReg 1 2) ∧ decodeWord .classic 0xB310 = some (.jpOffset 0x310) ∧
    decodeWord .extended 0x00FD = some .exit := by decide
theorem test_decode_alu :
    decodeWord .classic 0x6A42 = some (.ldImm 0xA 0x42) ∧ decodeWord .classic 0x7A42 = some (.addImm 0xA 0x42) ∧
    decodeWord .classic 0x8120 = some (.ldReg 1 2) ∧ decodeWord .classic 0x8121 = some (.orReg 1 2) ∧
    decodeWord .classic 0x8122 = some (.andReg 1 2) ∧ decodeWord .classic 0x8123 = some (.xorReg 1 2) ∧
    decodeWord .classic 0x8124 = some (.addReg 1 2) ∧ decodeWord .classic 0x8125 = some (.subReg 1 2) ∧
    decodeWord .classic 0x8126 = some (.shr 1 2) ∧ decodeWord .classic 0x8127 = some (.subnReg 1 2) ∧
    decodeWord .classic 0x812E = some (.shl 1 2) ∧ decodeWord .classic 0xCA42 = some (.rnd 0xA 0x42) := by decide
theorem test_decode_index_memory :
    decodeWord .classic 0xA2F0 = some (.ldI 0x2F0) ∧ decodeWord .classic 0xF51E = some (.addI 5) ∧
    decodeWord .classic 0xF529 = some (.ldF 5) ∧ decodeWord .classic 0xF533 = some (.ldB 5) ∧
    decodeWord .classic 0xF555 = some (.storeRegs 5) ∧ decodeWord .classic 0xF565 = some (.loadRegs 5) ∧
    decodeWord .extended 0xF530 = some (.ldHf 5) ∧ decodeWord .extended 0xF575 = some (.saveFlags 5) ∧
    decodeWord .extended 0xF585 = some (.loadFlags 5) := by decide
theorem test_decode_display :
    decodeWord .classic 0x00E0 = some .cls ∧ decodeWord .classic 0xD125 = some (.drw 1 2 5) ∧
    decodeWord .classic 0xD120 = some (.drw0 1 2) ∧ decodeWord .extended 0x00C5 = some (.scd 5) ∧
    decodeWord .extended 0x00FB = some .scr ∧ decodeWord .extended 0x00FC = some .scl ∧
    decodeWord .extended 0x00FE = some .low ∧ decodeWord .extended 0x00FF = some .high := by decide
theorem test_decode_keys_timers :
    decodeWord .classic 0xE79E = some (.skp 7) ∧ decodeWord .classic 0xE7A1 = some (.sknp 7) ∧
    decodeWord .classic 0xF707 = some (.ldVxDt 7) ∧ decodeWord .classic 0xF70A = some (.ldVxK 7) ∧
    decodeWord .classic 0xF715 = some (.ldDtVx 7) ∧ decodeWord .classic 0xF718 = some (.ldStVx 7) := by decide
/-- V1-V9, V118: illegal words. -/
theorem test_decode_illegal :
    decodeWord .classic 0x0000 = none ∧ decodeWord .classic 0x01E0 = none ∧ decodeWord .classic 0x5121 = none ∧
    decodeWord .classic 0x8128 = none ∧ decodeWord .classic 0xE19F = none ∧ decodeWord .classic 0xF100 = none ∧
    decodeWord .classic 0x00FD = none ∧ decodeWord .classic 0xF130 = none ∧ decodeWord .classic 0x00FB = none ∧
    decodeWord .extended 0x00FA = none := by decide
theorem test_decodeBytes_big_endian :
    decodeBytes .classic [0x12, 0x34, 0x56] = .instr (.jp 0x234) [0x56] ∧
    decodeBytes .classic [0x00, 0x00] = .illegal 0x0000 ∧ decodeBytes .classic [0x12] = .truncated := by decide
theorem test_decodeTableWord : decodeTableWord 16 0x812E = some (.shl 1 2) ∧ decodeTableWord 32 0x812E = none := by
  decide

/-! ## The engine (V1, V11-V14) -/

/-- V1: status 2/0x0000, pc 0x202, upd 0; and `started` is set (R123). -/
theorem test_step_illegal : (after (start .classic []) 0x0000).map (fun t => (t.status, t.pc, t.updated, t.started)) =
    some (⟨.illegalInstruction, 0x0000⟩, 0x202, false, true) := by decide
/-- V12: the second byte of a fetch at 0xFFF is M[0x000]. -/
theorem test_step_fetch_wraps : (after ((start .classic []).setPc 0xFFF) 0x1234).map (fun t => (t.pc, t.readByte 0)) =
    some (0x234, 0x34) := by decide
/-- R372, V20: the word placed after reset is the one the very next step runs. -/
theorem test_withFetchWord_from_reset : (nextState (step (State.reset.withFetchWord 16 0x1ABC))).map
    (fun t => (t.pc, t.pending)) = some (0xABC, []) := by decide
/-- V13: a latched machine does not move. -/
theorem test_step_latched :
    (nextState (State.runCommand ((start .classic []).raise (.illegalInstruction 0)) (.step 0 0))).map
      (fun t => (t.status, t.pc, t.started)) = some (⟨.illegalInstruction, 0⟩, 0x200, false) := by decide
/-- V153: DT 5, ST 1 to DT 4, ST 0. -/
theorem test_timerTick : (nextState (State.runCommand (((start .classic []).setDt 5).setSt 1) .timerTick)).map
    (fun t => (t.dt, t.st)) = some (4, 0) := by decide
/-- V168: RESET clears the user flags. -/
theorem test_reset : (nextState (State.runCommand ((start .extended []).setUfUpTo 0 (fun _ => 0x11)) (.reset .extended))).map
    (fun t => (t.getUf 0, t.pc)) = some (0, 0x200) := by decide
/-- V162-V164, V160: refused loads. -/
theorem test_loads_refused :
    refusal (State.runCommand (start .classic []) (.loadBigFont (List.replicate 160 0))) = some .bigFontInClassic ∧
    refusal (State.runCommand (start .extended []) (.loadFont (List.replicate 79 0))) = some (.fontLength 79) ∧
    refusal (State.runCommand { start .extended [] with started := true } (.loadFont (List.replicate 80 0))) =
      some .loadAfterStart := by decide
/-- R68: a program is loaded at 0x200. -/
theorem test_loadProgram : (nextState (State.runCommand (start .classic []) (.loadProgram [0x12, 0x08]))).map
    (fun t => (t.readByte 0x200, t.readByte 0x201, t.readByte 0x202)) = some (0x12, 0x08, 0) := by decide

/-! ## Control transfer -/

/-- V25 -/
theorem test_ret : (after { (start .classic []).setPc 0x400 with stack := [0x111, 0x30A] } 0x00EE).map
    (fun t => (t.pc, t.stack)) = some (0x30A, [0x111]) := by decide
/-- W3 -/
theorem test_ret_empty : (after ((start .classic []).setPc 0x300) 0x00EE).map (fun t => (t.pc, t.sp)) =
    some (0x200, 0) := by decide
/-- V20 -/
theorem test_jp : (after (start .classic []) 0x1ABC).map (fun t => t.pc) = some 0xABC := by decide
/-- V23 -/
theorem test_call : (after ((start .classic []).setPc 0xFFE) 0x2300).map (fun t => (t.stack, t.pc)) =
    some ([0x000], 0x300) := by decide
/-- V24 -/
theorem test_call_overflow : (after { start .classic [] with stack := List.replicate 16 0x222 } 0x2300).map
    (fun t => (t.status, t.pc, t.sp)) = some (⟨.stackOverflow, 0⟩, 0x202, 16) := by decide
/-- V27 -/
theorem test_seImm : (after (start .classic [(2, 5)]) 0x3205).map (fun t => t.pc) = some 0x204 ∧
    (after (start .classic [(2, 5)]) 0x3206).map (fun t => t.pc) = some 0x202 := by decide
/-- V31: a skip wraps. -/
theorem test_seImm_wraps : (after ((start .classic []).setPc 0xFFE) 0x3000).map (fun t => t.pc) = some 0x002 := by decide
/-- V28 -/
theorem test_sneImm : (after (start .classic [(2, 5)]) 0x4205).map (fun t => t.pc) = some 0x202 ∧
    (after (start .classic [(2, 5)]) 0x4206).map (fun t => t.pc) = some 0x204 := by decide
/-- V29 -/
theorem test_seReg_sneReg : (after (start .classic [(1, 0x33), (2, 0x33)]) 0x5120).map (fun t => t.pc) = some 0x204 ∧
    (after (start .classic [(1, 0x33), (2, 0x33)]) 0x9120).map (fun t => t.pc) = some 0x202 := by decide
/-- V34 and V33: `Vx` in Extended, `V0` in Classic. -/
theorem test_jpOffset : (after (start .extended [(0, 0x10), (3, 5)]) 0xB310).map (fun t => t.pc) = some 0x315 ∧
    (after (start .classic [(0, 0x10), (3, 5)]) 0xB300).map (fun t => t.pc) = some 0x310 := by decide
/-- V35: the sum wraps. -/
theorem test_jpOffset_wraps : (after (start .classic [(0, 0xFF)]) 0xBFFF).map (fun t => t.pc) = some 0x0FE := by decide
/-- V37 -/
theorem test_exit : (after ((start .extended []).setPc 0x204) 0x00FD).map (fun t => (t.status, t.pc, t.updated)) =
    some (⟨.programExited, 0⟩, 0x206, false) := by decide

/-! ## Registers and arithmetic -/

/-- V40 -/
theorem test_ldImm : (after (start .classic []) 0x6A42).map (fun t => t.getV 0xA) = some 0x42 := by decide
/-- V41 -/
theorem test_addImm : (after (start .classic [(1, 0xFF), (15, 7)]) 0x7102).map (fun t => (t.getV 1, t.getV 15)) =
    some (1, 7) := by decide
/-- V43 -/
theorem test_ldReg : (after (start .classic [(3, 0x9C)]) 0x8030).map (fun t => t.getV 0) = some 0x9C := by decide
/-- V44 -/
theorem test_orReg : (after (start .classic [(1, 0x0F), (2, 0xF0), (15, 5)]) 0x8121).map (fun t => (t.getV 1, t.getV 15)) =
      some (0xFF, 0) ∧
    (after (start .extended [(1, 0x0F), (2, 0xF0), (15, 5)]) 0x8121).map (fun t => (t.getV 1, t.getV 15)) =
      some (0xFF, 5) := by decide
/-- V47, V48: `x = 15`. -/
theorem test_orReg_flag_destination : (after (start .classic [(15, 0x80), (1, 1)]) 0x8F11).map (fun t => t.getV 15) = some 0 ∧
    (after (start .extended [(15, 0x80), (1, 1)]) 0x8F11).map (fun t => t.getV 15) = some 0x81 := by decide
/-- V45 -/
theorem test_andReg : (after (start .classic [(1, 0x3C), (2, 0x0F), (15, 1)]) 0x8122).map (fun t => (t.getV 1, t.getV 15)) =
      some (0x0C, 0) ∧
    (after (start .extended [(1, 0x3C), (2, 0x0F), (15, 1)]) 0x8122).map (fun t => (t.getV 1, t.getV 15)) =
      some (0x0C, 1) := by decide
/-- R186 example and V46 -/
theorem test_xorReg : (after (start .extended [(1, 0xFF), (2, 0x0F)]) 0x8123).map (fun t => t.getV 1) = some 0xF0 ∧
    (after (start .extended [(1, 0x5A), (15, 9)]) 0x8113).map (fun t => (t.getV 1, t.getV 15)) = some (0, 9) := by decide
/-- W5 -/
theorem test_addReg : (after (start .classic [(1, 0xFF), (2, 1)]) 0x8124).map (fun t => (t.getV 1, t.getV 15)) = some (0, 1) ∧
    (after (start .classic [(1, 1), (2, 1)]) 0x8124).map (fun t => (t.getV 1, t.getV 15)) = some (2, 0) := by decide
/-- V51, V52: `x = 15`, the flag is last. -/
theorem test_addReg_flag_last : (after (start .classic [(15, 0xFF), (1, 1)]) 0x8F14).map (fun t => t.getV 15) = some 1 ∧
    (after (start .classic [(15, 0x10), (1, 0x20)]) 0x8F14).map (fun t => t.getV 15) = some 0 := by decide
/-- W6 and V54 -/
theorem test_subReg : (after (start .classic [(1, 1), (2, 2)]) 0x8125).map (fun t => (t.getV 1, t.getV 15)) = some (0xFF, 0) ∧
    (after (start .extended [(1, 7), (2, 7)]) 0x8125).map (fun t => (t.getV 1, t.getV 15)) = some (0, 1) := by decide
/-- V53: `y = 15` reads the old `VF`. -/
theorem test_subReg_reads_old_flag : (after (start .classic [(1, 5), (15, 3)]) 0x81F5).map (fun t => (t.getV 1, t.getV 15)) =
    some (2, 1) := by decide
/-- V59 -/
theorem test_shr : (after (start .classic [(1, 5), (2, 0x80)]) 0x8126).map (fun t => (t.getV 1, t.getV 15)) = some (0x40, 0) ∧
    (after (start .extended [(1, 5), (2, 0x80)]) 0x8126).map (fun t => (t.getV 1, t.getV 15)) = some (2, 1) := by decide
/-- V56, V57 -/
theorem test_subnReg : (after (start .classic [(1, 1), (2, 3)]) 0x8127).map (fun t => (t.getV 1, t.getV 15)) = some (2, 1) ∧
    (after (start .classic [(1, 3), (2, 1)]) 0x8127).map (fun t => (t.getV 1, t.getV 15)) = some (0xFE, 0) := by decide
/-- V60 -/
theorem test_shl : (after (start .classic [(1, 0x81), (2, 0x40)]) 0x812E).map (fun t => (t.getV 1, t.getV 15)) = some (0x80, 0) ∧
    (after (start .extended [(1, 0x81), (2, 0x40)]) 0x812E).map (fun t => (t.getV 1, t.getV 15)) = some (2, 1) := by decide
/-- V65 -/
theorem test_rnd : (after (start .classic []) 0xC30F 0 0xA7).map (fun t => t.getV 3) = some 7 := by decide

/-! ## Index register, memory, user flags -/

/-- V70 -/
theorem test_ldI : (after (start .classic []) 0xAFFF).map (fun t => t.i) = some 0x0FFF := by decide
/-- V73 -/
theorem test_addI : (after ((start .classic [(0, 2), (15, 9)]).setI 0xFFFF) 0xF01E).map (fun t => (t.i, t.getV 15)) =
    some (1, 9) := by decide
/-- V74 -/
theorem test_ldF : (after (start .classic [(0, 0x1A)]) 0xF029).map (fun t => t.i) = some 0x82 ∧
    (after (start .classic [(0, 0xFF)]) 0xF029).map (fun t => t.i) = some 0x9B := by decide
/-- V76 -/
theorem test_ldHf : (after (start .extended [(0, 0x1F)]) 0xF030).map (fun t => t.i) = some 0x136 := by decide
/-- V78: the store wraps, and `I` stays. -/
theorem test_ldB : (after ((start .classic [(0, 123)]).setI 0xFFF) 0xF033).map
    (fun t => (t.readByte 0xFFF, t.readByte 0, t.readByte 1, t.i)) = some (1, 2, 3, 0xFFF) := by decide
/-- V77 -/
theorem test_ldB_255 : (after ((start .classic [(0, 255)]).setI 0x300) 0xF033).map
    (fun t => (t.readByte 0x300, t.readByte 0x301, t.readByte 0x302)) = some (2, 5, 5) := by decide
/-- V81 -/
theorem test_storeRegs : (after ((start .classic [(0, 0xA), (1, 0xB), (2, 0xC)]).setI 0xFFE) 0xF255).map
    (fun t => (t.readByte 0xFFE, t.readByte 0xFFF, t.readByte 0, t.i)) = some (0xA, 0xB, 0xC, 0x1001) := by decide
/-- V79 in Extended: `I` stays, and the byte after the last is untouched. -/
theorem test_storeRegs_extended : (after ((start .extended [(0, 1), (1, 2), (2, 3), (3, 4)]).setI 0x300) 0xF255).map
    (fun t => (t.readByte 0x302, t.readByte 0x303, t.i)) = some (3, 0, 0x300) := by decide
/-- V82 -/
theorem test_loadRegs : (after (withBytes (start .classic [(3, 0x55)]) 0x300 [7, 8, 9, 1]) 0xF265).map
    (fun t => (t.getV 0, t.getV 2, t.getV 3, t.i)) = some (7, 9, 0x55, 0x303) ∧
    (after (withBytes (start .extended []) 0x300 [7, 8, 9]) 0xF265).map (fun t => (t.getV 1, t.i)) = some (8, 0x300) := by
  decide
/-- V85 -/
theorem test_saveFlags : (after (start .extended [(0, 0x11), (1, 0x22), (2, 0x33)]) 0xF175).map
    (fun t => (t.getUf 0, t.getUf 1, t.getUf 2)) = some (0x11, 0x22, 0) := by decide
/-- V86 -/
theorem test_loadFlags : (after ((start .extended [(2, 9)]).setUfUpTo 15 (fun k => BitVec.ofNat 8 (0x11 * (k + 1)))) 0xF185).map
    (fun t => (t.getV 0, t.getV 1, t.getV 2)) = some (0x11, 0x22, 9) := by decide

/-! ## Display -/

/-- W2 -/
theorem test_cls : (after { start .classic [] with fb := [(3, 4)] } 0x00E0).map (fun t => (t.fb, t.updated, t.pc)) =
    some ([], true, 0x202) := by decide
/-- V90, V91: the right edge and the bottom edge, in Classic and in Extended low-res. -/
theorem test_drw : (after (withBytes (start .classic [(0, 62), (1, 31)]) 0x300 [0xF0, 0x90]) 0xD012).map
      (fun t => (t.fb, t.getV 15, t.updated)) = some ([(62, 31), (63, 31)], 0, true) ∧
    (after (withBytes (start .extended [(0, 62), (1, 31)]) 0x300 [0xF0, 0x90]) 0xD012).map
      (fun t => (t.fb, t.getV 15)) =
        some ([(124, 62), (125, 62), (126, 62), (127, 62), (124, 63), (125, 63), (126, 63), (127, 63)], 1) := by decide
/-- V97: one hit and two clipped rows. -/
theorem test_drw_collision : (after (withBytes { start .extended [(0, 0), (1, 62)] with fb := [(0, 62)], highRes := true }
    0x300 [0x80, 0x80, 0x80, 0x80]) 0xD014).map (fun t => (t.fb, t.getV 15)) = some ([(0, 63)], 3) := by decide
/-- V101: the 16×16 sprite, bit 15 leftmost, the start wraps. -/
theorem test_drw0 : (after (withBytes { start .extended [(0, 133), (1, 0)] with highRes := true } 0x400 [0x80, 0x01]) 0xD010).map
    (fun t => (t.fb, t.getV 15)) = some ([(5, 0), (20, 0)], 0) := by decide
/-- V98: zero rows outside Extended high-res. -/
theorem test_drw0_zero_rows : (after { start .classic [(15, 7)] with fb := [(0, 0)] } 0xD010).map
    (fun t => (t.fb, t.getV 15, t.updated)) = some ([(0, 0)], 0, true) := by decide
/-- V106, V107 -/
theorem test_scr : (after { start .extended [] with fb := [(0, 0)], highRes := true } 0x00FB).map (fun t => t.fb) = some [(4, 0)] ∧
    (after { start .extended [] with fb := [(0, 0)] } 0x00FB).map (fun t => t.fb) = some [(8, 0)] := by decide
/-- V108, V109 -/
theorem test_scl : (after { start .extended [] with fb := [(3, 0)], highRes := true } 0x00FC).map (fun t => t.fb) = some [] ∧
    (after { start .extended [] with fb := [(8, 3)] } 0x00FC).map (fun t => t.fb) = some [(0, 3)] := by decide
/-- V112, V113 -/
theorem test_scd : (after { start .extended [] with fb := [(0, 48)], highRes := true } 0x00CF).map (fun t => t.fb) = some [(0, 63)] ∧
    (after { start .extended [] with fb := [(0, 33), (0, 34)] } 0x00CF).map (fun t => t.fb) = some [(0, 63)] := by decide
/-- V115 -/
theorem test_low : (after { start .extended [] with fb := [(1, 1)], highRes := true } 0x00FE).map
    (fun t => (t.highRes, t.fb, t.updated)) = some (false, [(1, 1)], false) := by decide
/-- V116 -/
theorem test_high : (after { start .extended [] with fb := [(1, 1)] } 0x00FF).map
    (fun t => (t.highRes, t.fb, t.updated)) = some (true, [(1, 1)], false) := by decide

/-! ## Keys and timers -/

/-- V120, V122 -/
theorem test_skp : (after (start .classic [(1, 0xA)]) 0xE19E 0x0400).map (fun t => t.pc) = some 0x204 ∧
    (after (start .classic [(1, 0x13)]) 0xE19E 0x0008).map (fun t => t.pc) = some 0x204 := by decide
/-- V121, V123 -/
theorem test_sknp : (after (start .classic [(1, 0xA)]) 0xE1A1 0x0400).map (fun t => t.pc) = some 0x202 ∧
    (after (start .classic []) 0xE1A1 0).map (fun t => t.pc) = some 0x204 := by decide
/-- V135 and V140: the wait takes the mask and goes back, wrapping. -/
theorem test_ldVxK_waits : (after (((start .classic []).setPc 0x300).setLatch 1) 0xF50A 2).map (fun t => (t.latch, t.pc)) =
      some (2, 0x300) ∧
    (after ((start .classic []).setPc 0xFFE) 0xF00A 0).map (fun t => (t.latch, t.pc)) = some (0, 0xFFE) := by decide
/-- V134 and V138: the lowest released key. -/
theorem test_ldVxK_reports : (after (((start .classic []).setPc 0x300).setLatch 8) 0xF50A 1).map
      (fun t => (t.getV 5, t.latch, t.pc)) = some (3, 0, 0x302) ∧
    (after (((start .classic []).setPc 0x300).setLatch 6) 0xF50A 0).map (fun t => (t.getV 5, t.latch)) = some (1, 0) := by decide
/-- V154 -/
theorem test_ldVxDt : (after ((start .classic []).setDt 0x3C) 0xF307).map (fun t => t.getV 3) = some 0x3C := by decide
/-- V150 -/
theorem test_ldDtVx : (after (start .classic [(3, 3)]) 0xF315).map (fun t => (t.dt, t.st)) = some (3, 0) := by decide
/-- V155 -/
theorem test_ldStVx : (after (start .classic [(4, 2)]) 0xF418).map (fun t => (t.dt, t.st)) = some (0, 2) := by decide
/-- V8, V88, V118: a word of the second table in Classic. -/
theorem test_second_table_in_classic : (after (start .classic []) 0xF175).map (fun t => (t.status, t.pc)) =
    some (⟨.illegalInstruction, 0xF175⟩, 0x202) := by decide

/-! ## Witnesses: states and operands that meet the hypotheses of each statement, clause by clause -/

/-- A machine with one STEP in its schedule and a word at `pc`. -/
def placed (s : State) (w : Word) : State := State.withFetchWord { s with pending := [.step 0 0] } 16 w.toNat

theorem witness_EveryStepKeepsTheInvariant :
    ∃ s t : State, s.Inv ∧ s.sp = 16 ∧ s.pc = 0xFFF ∧ step s = .next t :=
  ⟨placed { (start .extended []).setPc 0xFFF with
      stack := List.replicate 16 0x222, highRes := true, fb := [(127, 63)] } 0x2300,
    _, by unfold State.Inv; decide, by decide, by decide, rfl⟩
theorem witness_LatchIsZeroOutsideAKeyWait :
    ∃ s t : State, s.Inv ∧ s.KeyWaitInv ∧ s.latch ≠ 0 ∧ step s = .next t :=
  ⟨placed { (start .classic []).setLatch 8 with started := true } 0xF50A, _, by unfold State.Inv; decide,
    fun _ => ⟨by decide, by decide, 5, by decide⟩, by decide, rfl⟩
theorem witness_DecodeEncodeRoundTrip :
    (Instr.drw 15 0 1).legalIn .classic = true ∧ (Instr.loadFlags 15).legalIn .extended = true := by decide
theorem witness_DecodedWordMatchesItsRowAndReencodes :
    decodeWord .classic 0xDFF0 = some (.drw0 15 15) ∧ decodeWord .extended 0x00CF = some (.scd 15) := by decide
theorem witness_IllegalWordsAreExactlyTheListedOnes :
    (∃ s : State, s.variant = .classic ∧ s.status.code = .running ∧ s.fetchWord = 0x00FF ∧
      decodeWord s.variant 0x00FF = none) ∧
    (∃ s : State, s.variant = .extended ∧ s.status.code = .running ∧ s.fetchWord = 0xFFFF ∧
      decodeWord s.variant 0xFFFF = none) :=
  ⟨⟨placed (start .classic []) 0x00FF, by decide⟩, ⟨placed (start .extended []) 0xFFFF, by decide⟩⟩
/-- A scheduled STEP in a running machine, on a legal and on an illegal word, and in a latched machine; and an
empty schedule. That the command then drawn is a STEP is a premise about a free value, which nothing decides. -/
theorem witness_StepRunsTheDecodedInstruction :
    (∃ s : State, s.pending = .step 0 0 :: [] ∧ s.status.code = .running ∧
      decodeWord s.variant s.fetchWord = some (.jp 0x234)) ∧
    (∃ s : State, s.pending = .step 0 0 :: [] ∧ s.status.code = .running ∧ decodeWord s.variant s.fetchWord = none) ∧
    (∃ s : State, s.pending = .step 0 0 :: [] ∧ s.status.code ≠ .running) ∧
    (∃ s : State, s.pending = [] ∧ s.status.code = .running) :=
  ⟨⟨placed (start .classic []) 0x1234, by decide⟩, ⟨placed (start .classic []) 0x0000, by decide⟩,
    ⟨(placed (start .classic []) 0).raise .stackOverflow, by decide⟩, ⟨start .classic [], by decide⟩⟩
theorem witness_StepRunsTheNextCommand :
    (∃ s : State, s.pending = .timerTick :: []) ∧ (∃ s : State, s.pending = .loadFont [] :: []) ∧
    (∃ s : State, s.pending = []) :=
  ⟨⟨{ start .classic [] with pending := [.timerTick] }, rfl⟩, ⟨{ start .classic [] with pending := [.loadFont []] }, rfl⟩,
    ⟨start .classic [], rfl⟩⟩
theorem witness_StepInALatchedMachineChangesNothing :
    ∃ s : State, s.status.code = .programExited ∧ s.status.code ≠ .running :=
  ⟨(start .extended []).raise .programExited, by decide⟩
theorem witness_ErrorLatchIsStickyUntilReset :
    ∃ s t : State, s.status.code ≠ .running ∧ s.started = true ∧ (∀ var, Command.reset var ∉ s.pending) ∧
      (∀ n var, s.draws ≤ n → n < s.draws + (2 - s.pending.length) → Config.freeCommand n ≠ .reset var) ∧
      Host.Core.run Sys2Proof.core 2 s = .next t ∧ t.dt = 4 :=
  ⟨{ ((start .classic []).setDt 5).raise .stackOverflow with started := true, pending := [.timerTick, .step 0 0] },
    _, by decide, by decide, by intro v; cases v <;> decide,
    fun n _ h1 h2 => absurd (Nat.lt_of_le_of_lt h1 h2) (by decide),
    (run_next _ 1 _ rfl).trans ((run_next _ 0 _ rfl).trans rfl), rfl⟩
theorem witness_VariantChangesOnlyAtReset :
    (∃ s t : State, s.variant = .extended ∧ s.runCommand (.reset .classic) = .next t) ∧
    (∃ s t : State, s.runCommand .timerTick = .next t) ∧
    (∃ s t : State, s.runCommand (.step 0 0) = .next t) ∧
    (∃ s t : State, s.runCommand (.loadProgram [0x12]) = .next t) :=
  ⟨⟨start .extended [], _, rfl, rfl⟩, ⟨start .classic [], _, rfl⟩, ⟨placed (start .classic []) 0x1234, _, rfl⟩,
    ⟨start .classic [], _, rfl⟩⟩
theorem witness_OnlyTheirInstructionsReadTheInputs :
    (∃ (i : Instr) (s t : State), exec i s = .next t ∧ (∀ x, i ≠ .skp x ∧ i ≠ .sknp x ∧ i ≠ .ldVxK x)) ∧
    (∃ (i : Instr) (s t : State), exec i s = .next t ∧ (∀ x nn, i ≠ .rnd x nn)) :=
  ⟨⟨.rnd 1 0xFF, start .classic [], _, rfl, by decide⟩, ⟨.ldVxK 1, start .classic [], _, rfl, by intro x nn h; cases h⟩⟩
theorem witness_UpdatedBitIsSetByDisplayInstructions :
    (∃ s : State, s.status.code = .running ∧ decodeWord s.variant s.fetchWord = some (.scd 15)) ∧
    (∃ s : State, s.status.code = .running ∧ decodeWord s.variant s.fetchWord = some (.ldImm 1 2)) :=
  ⟨⟨placed (start .extended []) 0x00CF, by decide⟩, ⟨placed (start .classic []) 0x6102, by decide⟩⟩
theorem witness_OnlyThreeOutcomesAreRaised :
    (∃ s : State, s.status.code = .running ∧ decodeWord s.variant s.fetchWord = some (.call 0x300) ∧ s.sp = 16) ∧
    (∃ s : State, s.status.code = .running ∧ decodeWord s.variant s.fetchWord = some (.call 0x300) ∧ s.sp = 15) ∧
    (∃ s : State, s.status.code = .running ∧ decodeWord s.variant s.fetchWord = some .exit) ∧
    (∃ s : State, s.status.code = .running ∧ decodeWord s.variant s.fetchWord = none) ∧
    (∃ s : State, s.status.code ≠ .running) :=
  ⟨⟨placed { start .classic [] with stack := List.replicate 16 0 } 0x2300, by decide⟩,
    ⟨placed { start .classic [] with stack := List.replicate 15 0 } 0x2300, by decide⟩,
    ⟨placed (start .extended []) 0x00FD, by decide⟩, ⟨placed (start .classic []) 0x00FD, by decide⟩,
    ⟨(start .classic []).raise .programExited, by decide⟩⟩
theorem witness_ErrorsWriteOnlyTheStatus :
    ∃ s t : State, s.status.code = .running ∧ s.runCommand (.step 0 0) = .next t ∧ t.status.code ≠ .running :=
  ⟨placed ((start .classic []).setPc 0xFFF) 0xF1FF, _, by decide, rfl, by decide⟩
theorem witness_TimerTickCountsBothTimersDown : ∃ s u : State, s.dt ≠ 0 ∧ s.st = 0 ∧ u.dt = 0 ∧ u.st ≠ 0 :=
  ⟨(start .classic []).setDt 1, (start .classic []).setSt 255, by decide⟩
theorem witness_LoadsWriteExactlyTheirRegions :
    { start .extended [] with started := true }.started = true ∧ (start .extended []).started = false ∧ (start .extended []).variant = .extended ∧
    (List.replicate 80 (7 : Byte)).length = 80 ∧ (List.replicate 160 (7 : Byte)).length = 160 ∧
    (List.replicate 3584 (7 : Byte)).length ≤ 3584 :=
  ⟨rfl, rfl, rfl, List.length_replicate, List.length_replicate, List.length_replicate.le⟩
theorem witness_LoadsOutsideTheProtocolAreRefused :
    { start .extended [] with started := true }.started = true ∧ (List.replicate 79 (7 : Byte)).length ≠ 80 ∧
    (List.replicate 161 (7 : Byte)).length ≠ 160 ∧ (start .classic []).variant = .classic ∧
    3584 < (List.replicate 3585 (7 : Byte)).length :=
  ⟨rfl, by rw [List.length_replicate]; decide, by rw [List.length_replicate]; decide, rfl,
    by rw [List.length_replicate]; decide⟩
theorem witness_StoreIsSeenByTheNextFetch :
    ∃ (s : State) (x : Nibble), 1 ≤ x.toNat ∧ s.i = 0x1FFF ∧ s.i.toNat % 4096 = s.pc.toNat % 4096 :=
  ⟨((start .classic []).setPc 0xFFF).setI 0x1FFF, 1, by decide⟩
theorem witness_JumpToItselfParksTheProgram :
    ∃ (s : State) (nnn : Addr), s.status.code = .running ∧ s.pc.toNat = nnn.toNat ∧
      s.fetchWord = encode (.jp nnn) := ⟨placed ((start .classic []).setPc 0xFFF) 0x1FFF, 0xFFF, by decide⟩
theorem witness_OnlyNamedRegistersChange :
    (∃ (s t : State) (k : Nibble), exec (.addReg 1 2) s = .next t ∧ mayWriteV s.variant (.addReg 1 2) k = false) ∧
    (∃ (s t : State) (k : Nibble), exec (.loadRegs 14) s = .next t ∧ mayWriteV s.variant (.loadRegs 14) k = false) :=
  ⟨⟨start .classic [], _, 0, rfl, by decide⟩, ⟨start .classic [], _, 15, rfl, by decide⟩⟩
/-- `Fx07` is a writer of no piece of the statement, so it meets the premise of every clause, in `Classic` too;
a call with one free entry, and an instruction of the second table in `Extended`, meet that of `status`. -/
theorem witness_EveryOtherPieceOfStateHasOnlyItsWriters :
    (∃ s t : State, exec (.ldVxDt 15) s = .next t ∧ s.variant = .classic ∧ (Instr.ldVxDt 15).extendedOnly = false) ∧
    (∃ s t : State, exec (.call 0) s = .next t ∧ s.sp = 15 ∧ s.sp < 16) ∧
    (∃ s t : State, exec .high s = .next t ∧ s.variant = .extended) :=
  ⟨⟨start .classic [], _, rfl, by decide, rfl⟩,
    ⟨{ start .classic [] with stack := List.replicate 15 0 }, _, rfl, by decide, by decide⟩,
    ⟨start .extended [], _, rfl, by decide⟩⟩
theorem witness_ReturnPopsOrRestarts : ∃ s u : State, s.stack = [] ∧ u.stack = List.replicate 15 0 ++ [0x30A] :=
  ⟨start .classic [], { start .classic [] with stack := List.replicate 15 0 ++ [0x30A] }, rfl, rfl⟩
theorem witness_CallPushesAndJumpsOrOverflows : ∃ s u : State, s.sp = 15 ∧ s.sp < 16 ∧ 16 ≤ u.sp :=
  ⟨{ start .classic [] with stack := List.replicate 15 0 }, { start .classic [] with stack := List.replicate 16 0 },
    by decide⟩
theorem witness_SkipOnImmediate :
    ∃ (s : State) (x : Nibble) (nn : Byte), s.getV x = nn ∧ s.pc = 0xFFE ∧ s.getV x ≠ nn + 1 :=
  ⟨(start .classic [(15, 0xFF)]).setPc 0xFFE, 15, 0xFF, by decide⟩
theorem witness_SkipOnRegisters :
    ∃ (s : State) (x y z : Nibble), s.getV x = s.getV y ∧ s.getV x ≠ s.getV z ∧ s.pc = 0xFFE :=
  ⟨(start .classic [(15, 0xFF)]).setPc 0xFFE, 0, 1, 15, by decide⟩
theorem witness_JumpWithOffsetAddsTheVariantsRegister :
    ∃ s u : State, s.variant = .classic ∧ s.getV 0 = 0xFF ∧ u.variant = .extended ∧ u.getV 15 = 0xFF :=
  ⟨start .classic [(0, 0xFF)], start .extended [(15, 0xFF)], by decide⟩
theorem witness_LogicalGridOfEachMode :
    (∃ s : State, s.variant = .extended ∧ s.highRes = true) ∧ (∃ s : State, s.variant = .extended ∧ s.highRes = false) ∧
    (∃ s : State, s.variant = .classic ∧ s.highRes = false) :=
  ⟨⟨(start .extended []).setHighRes true, by decide⟩, ⟨start .extended [], by decide⟩, ⟨start .classic [], by decide⟩⟩
theorem witness_ExitLatchesProgramExited :
    ∃ s u : State, s.variant = .extended ∧ u.variant = .classic := ⟨start .extended [], start .classic [], by decide⟩
/-- Each of the three instructions, in `Classic` with `x = 15` and `x = 14`, and in `Extended` with `x = 15`. -/
theorem witness_LogicOperationsAndTheClassicFlagClear :
    (∃ (s : State) (x y : Nibble) (i : Instr) (bit : Bool → Bool → Bool), s.variant = .classic ∧ x = 14 ∧ x ≠ 15 ∧
      ((i = .orReg x y ∧ bit = or) ∨ (i = .andReg x y ∧ bit = and) ∨ (i = .xorReg x y ∧ bit = xor))) ∧
    (∃ (s : State) (x y : Nibble) (i : Instr) (bit : Bool → Bool → Bool), s.variant = .extended ∧ x = 15 ∧
      ((i = .orReg x y ∧ bit = or) ∨ (i = .andReg x y ∧ bit = and) ∨ (i = .xorReg x y ∧ bit = xor))) :=
  ⟨⟨start .classic [], 14, 1, .andReg 14 1, and, rfl, rfl, by decide, .inr (.inl ⟨rfl, rfl⟩)⟩,
    ⟨start .extended [], 15, 1, .xorReg 15 1, xor, rfl, rfl, .inr (.inr ⟨rfl, rfl⟩)⟩⟩
/-- The carry: sums of 255 and 256, with `x` other than 15. -/
theorem witness_AddRegistersSetsCarry :
    ∃ (s : State) (x y z : Nibble), x ≠ 15 ∧ (s.getV x).toNat + (s.getV y).toNat = 255 ∧
      (s.getV x).toNat + (s.getV z).toNat = 256 := ⟨start .classic [(1, 0xFF), (2, 0), (3, 1)], 1, 2, 3, by decide⟩
/-- The no-borrow flag: equal operands, and one apart. -/
theorem witness_SubtractionsSetNoBorrow :
    ∃ (s : State) (x y : Nibble) (a b : Byte), x ≠ 15 ∧ (a = s.getV x ∧ b = s.getV y) ∧ b.toNat = a.toNat + 1 ∧
      a = s.getV 3 := ⟨start .classic [(1, 7), (2, 8), (3, 7)], 1, 2, 7, 8, by decide⟩
theorem witness_ShiftsCatchTheBitShiftedOut :
    ∃ (s u : State) (x y : Nibble) (a b : Byte), x ≠ 15 ∧
      a = (match s.variant with | .classic => s.getV y | .extended => s.getV x) ∧ s.variant = .classic ∧
      b = (match u.variant with | .classic => u.getV y | .extended => u.getV x) ∧ u.variant = .extended :=
  ⟨start .classic [(1, 1), (2, 0x81)], start .extended [(1, 1), (2, 0x81)], 1, 2, 0x81, 1, by decide⟩
theorem witness_GlyphAddresses : ∃ s : State, s.variant = .extended ∧ (s.getV 15).toNat % 16 = 15 :=
  ⟨start .extended [(15, 0xFF)], by decide⟩
/-- For `k ≤ x` and `¬ k ≤ x` at the ends of the range, in either variant: Fx55, Fx65, Fx75 and Fx85. -/
theorem witness_RegistersAreStoredAtIndex :
    ∃ (s u : State) (x k : Nibble), s.variant = .classic ∧ u.variant = .extended ∧ s.i = 0xFFFF ∧ k ≤ x ∧ k = 15 :=
  ⟨(start .classic []).setI 0xFFFF, start .extended [], 15, 15, by decide⟩
theorem witness_RegistersAreLoadedFromIndex :
    ∃ (s u : State) (x k j : Nibble), s.variant = .classic ∧ u.variant = .extended ∧ k ≤ x ∧ ¬ j ≤ x ∧ x = 0 :=
  ⟨start .classic [], start .extended [], 0, 0, 1, by decide⟩
theorem witness_StoreThenLoadGivesTheRegistersBack :
    ∃ (s t : State) (x k : Nibble), s.i = 0xFFFF ∧ exec (.storeRegs x) s = .next t ∧ k ≤ x :=
  ⟨(start .classic []).setI 0xFFFF, _, 15, 15, by decide, rfl, by decide⟩
theorem witness_UserFlagsSaveAndRestore :
    ∃ (s u : State) (x k j : Nibble), s.variant = .extended ∧ u.variant = .classic ∧ k ≤ x ∧ ¬ j ≤ x ∧ x = 14 :=
  ⟨start .extended [], start .classic [], 14, 14, 15, by decide⟩
/-- Each form; and for the 8-wide one a set pixel of the sprite on a lit cell at the last column and row, and
a cell it does not cover. -/
theorem witness_DrawXorsTheSpriteOfEachForm :
    (∃ (s : State) (n : Nibble), n ≠ 0 ∧ n = 1 ∧ s.geometry = ⟨64, 32, 1⟩ ∧
      spriteCovers s.geometry 63 31 8 1 (fun row col => (s.readByte (s.i.toNat + row)).getLsbD (7 - col)) 63 31 ∧
      FrameBuffer.lit s.fb 63 31 = true ∧
      ¬ spriteCovers s.geometry 63 31 8 1 (fun row col => (s.readByte (s.i.toNat + row)).getLsbD (7 - col)) 0 31) ∧
    (∃ s : State, s.variant = .extended ∧ s.highRes = true ∧ s.readByte s.i.toNat = 0x80) ∧
    (∃ s : State, s.variant = .classic ∧ (s.variant = .classic ∨ s.highRes = false)) ∧
    (∃ s : State, s.variant = .extended ∧ (s.variant = .classic ∨ s.highRes = false)) :=
  ⟨⟨{ withBytes (start .classic [(1, 63), (2, 31)]) 0x300 [0xC0] with fb := [(63, 31)] }, 1,
      by unfold spriteCovers; decide⟩,
    ⟨withBytes ((start .extended []).setHighRes true) 0xFFF [0x80, 0x01], by decide⟩,
    ⟨start .classic [], by decide⟩, ⟨start .extended [], by decide⟩⟩
/-- A first draw that lights a cell, at the last row of the screen; and a 16×16 one whose last row is the last
of the screen. -/
theorem witness_DrawingTwiceGivesTheDisplayBack :
    (∃ s t u : State, s.Inv ∧ (1 : Nibble) ≠ 15 ∧ (2 : Nibble) ≠ 15 ∧ exec (.drw 1 2 1) s = .next t ∧
      exec (.drw 1 2 1) t = .next u ∧
      (∃ c r, FrameBuffer.lit t.fb c r = true ∧ FrameBuffer.lit s.fb c r = false) ∧ (1 : Nibble) ≠ 0 ∧
      s.variant = .extended ∧ (s.getV 2).toNat % s.geometry.lh + (1 : Nibble).toNat ≤ s.geometry.lh) ∧
    (∃ s t u : State, s.Inv ∧ exec (.drw0 1 2) s = .next t ∧ exec (.drw0 1 2) t = .next u ∧
      (∃ c r, FrameBuffer.lit t.fb c r = true ∧ FrameBuffer.lit s.fb c r = false) ∧
      s.variant = .extended ∧ s.highRes = true ∧ (s.getV 2).toNat % 64 + 16 = 64) :=
  ⟨⟨withBytes ((start .extended [(1, 127), (2, 63)]).setHighRes true) 0x300 [0x80], _, _,
    by unfold State.Inv; decide, by decide, by decide, rfl, rfl, ⟨127, 63, by decide, by decide⟩, by decide, by decide,
    by decide⟩,
   ⟨withBytes ((start .extended [(1, 127), (2, 48)]).setHighRes true) 0x300 [0x80], _, _,
    by unfold State.Inv; decide, rfl, rfl, ⟨127, 48, by decide, by decide⟩, by decide, by decide, by decide⟩⟩
theorem witness_LowAndHighSelectTheResolution :
    ∃ s u : State, s.variant = .extended ∧ s.highRes = true ∧ u.variant = .classic :=
  ⟨(start .extended []).setHighRes true, start .classic [], by decide⟩
/-- Each resolution. -/
theorem witness_HorizontalScrollsMoveColumns :
    (∃ (s : State) (k : Nat), s.variant = .extended ∧ k = (if s.highRes then 4 else 8) ∧ k = 4) ∧
    (∃ (s : State) (k : Nat), s.variant = .extended ∧ k = (if s.highRes then 4 else 8) ∧ k = 8) :=
  ⟨⟨(start .extended []).setHighRes true, 4, by decide⟩,
    ⟨start .extended [], 8, by decide⟩⟩
theorem witness_VerticalScrollMovesRows :
    ∃ (s u : State) (n : Nibble) (d e : Nat), s.variant = .extended ∧ u.variant = .extended ∧
      d = (if s.highRes then n.toNat else 2 * n.toNat) ∧ d = 15 ∧
      e = (if u.highRes then n.toNat else 2 * n.toNat) ∧ e = 30 :=
  ⟨(start .extended []).setHighRes true, start .extended [], 15, 15, 30, by decide⟩
theorem witness_SkipOnKey :
    ∃ (s : State) (x y : Nibble), true = s.keys.getLsbD ((s.getV x).toNat % 16) ∧
      false = s.keys.getLsbD ((s.getV y).toNat % 16) :=
  ⟨{ start .classic [(1, 0xFF), (2, 0xF0)] with keys := 0x8000 }, 1, 2, by decide⟩
/-- A decrease by one, and no change. -/
theorem witness_KeyWaitReportsTheLowestReleasedKey :
    ∃ s u : State, s.keys.toNat < s.latch.toNat ∧ s.keys.toNat + 1 = s.latch.toNat ∧ ¬ u.keys.toNat < u.latch.toNat ∧
      u.keys = u.latch ∧ u.pc = 0 :=
  ⟨{ (start .classic []).setLatch 0x8000 with keys := 0x7FFF }, (start .classic []).setPc 0, by decide⟩

end Sys2Proof.Tests
end

section
/-! Proofs about the scope of the block (00_scope): which commands write the variant (R10). -/

namespace Sys2Proof.Machine

variable {s t : State}

/-! ## What no instruction writes -/

/-- No instruction writes the variant, `started`, the inputs of the STEP or the host's schedule: the state it
leaves has those of the state before. -/
theorem exec_unwritten_fields {i : Instr} (h : exec i s = .next t) :
    t = { t with variant := s.variant, started := s.started, keys := s.keys, rnd := s.rnd,
                 pending := s.pending, draws := s.draws } := by
  cases i
  case call nnn => rcases exec_call s nnn with ⟨-, hc⟩ | ⟨-, hc⟩ <;> cases hc.symm.trans h <;> rfl
  case ret =>
    rw [exec_ret] at h
    rcases s.pop_cases with ⟨-, hp⟩ | ⟨rest, r, -, hp⟩ <;> rw [hp] at h <;> cases h <;> rfl
  case ldVxK x =>
    rw [exec_ldVxK] at h
    split at h <;> cases h <;> rfl
  case orReg | andReg | xorReg => cases h; rw [State.setLogicResult_eq]
  case seImm | sneImm | seReg | sneReg | skp | sknp => cases h; rw [State.skipIf_eq]
  case ldB => cases h; rw [State.writeBytes_eq]
  case storeRegs => cases h; rw [State.postIncrementI_eq, State.writeBytes_eq]
  case loadRegs => cases h; rw [State.postIncrementI_eq]; rfl
  case scd | scr | scl | exit | low | high | ldHf | saveFlags | loadFlags =>
    cases h
    cases hv : s.variant
    case classic => rw [State.extendedOnly_classic _ _ _ hv, ← hv]; rfl
    case extended => rw [State.extendedOnly_extended _ _ _ hv, ← hv]; rfl
  all_goals cases h; rfl

/-! ## What a load does when it is not refused (R68, R69) -/

theorem runLoadFont_eq_next_iff {bytes : List Byte} :
    s.runLoadFont bytes = .next t ↔
      s.started = false ∧ bytes.length = 80 ∧ s.writeBytes smallFontBase bytes = t := by
  simp only [State.runLoadFont, smallFontSize]
  split_ifs <;> simp [*]

theorem runLoadBigFont_eq_next_iff {bytes : List Byte} :
    s.runLoadBigFont bytes = .next t ↔
      s.started = false ∧ s.variant = .extended ∧ bytes.length = 160 ∧ s.writeBytes bigFontBase bytes = t := by
  have hv : s.variant = .extended ↔ ¬ s.variant = .classic := by cases s.variant <;> decide
  simp only [State.runLoadBigFont, bigFontSize, hv]
  split_ifs <;> simp [*]

theorem runLoadProgram_eq_next_iff {bytes : List Byte} :
    s.runLoadProgram bytes = .next t ↔
      s.started = false ∧ bytes.length ≤ 3584 ∧ s.writeBytes programBase bytes = t := by
  simp only [State.runLoadProgram, programLimit]
  split_ifs <;> simp [*]

/-! ## The variant (R10) -/

@[simp] theorem State.writeBytes_variant (a : Nat) (bs : List Byte) : (s.writeBytes a bs).variant = s.variant := by
  rw [State.writeBytes_eq]

theorem exec_variant {i : Instr} (h : exec i s = .next t) : t.variant = s.variant := by
  rw [exec_unwritten_fields h]

/-- A STEP keeps the variant: latched, illegal, or through the instruction it runs. -/
theorem runStep_variant {keys : Word} {rnd : Byte} (h : s.runStep keys rnd = .next t) :
    t.variant = s.variant := by
  rcases runStep_cases s keys rnd with ⟨-, hs⟩ | ⟨-, -, hs⟩ | ⟨i, -, -, hs⟩ <;> rw [hs] at h
  · cases h; rfl
  · cases h; rfl
  · simpa using exec_variant h

/-- Settles O13, by the command: RESET takes its input, a load writes memory alone, TIMER_TICK the timers, and
no STEP writes the variant. -/
theorem variantChangesOnlyAtReset : Obligations.VariantChangesOnlyAtReset := by
  intro s t c h
  cases c
  case reset v => cases h; rfl
  case loadFont bytes => obtain ⟨-, -, rfl⟩ := runLoadFont_eq_next_iff.1 h; simp
  case loadBigFont bytes => obtain ⟨-, -, -, rfl⟩ := runLoadBigFont_eq_next_iff.1 h; simp
  case loadProgram bytes => obtain ⟨-, -, rfl⟩ := runLoadProgram_eq_next_iff.1 h; simp
  case step keys rnd => exact runStep_variant h
  case timerTick => cases h; rfl

end Sys2Proof.Machine
end

section
/-! Proofs about the state (10_state): its values at reset (R39), the invariants (R38), and which pieces of it
an instruction writes (R22-R35). -/

namespace Sys2Proof.Machine

variable {s t : State}

/-! ## What keeps the invariants, operation by operation -/

theorem State.Inv.setPc (hs : s.Inv) (w : Word) : (s.setPc w).Inv := by
  obtain ⟨-, hsp, hmem, hfb, hres, hinfo, herr⟩ := hs
  exact ⟨s.setPc_lt w, hsp, hmem, hfb, hres, hinfo, herr⟩

theorem State.Inv.skipIf (hs : s.Inv) (c : Bool) : (s.skipIf c).Inv := by
  cases c
  case false => exact hs
  case true => exact hs.setPc _

theorem State.Inv.push (hs : s.Inv) (h : s.sp < 16) (r : Word) :
    State.Inv { s with stack := s.stack ++ [r] } := by
  obtain ⟨hpc, -, hmem, hfb, hres, hinfo, herr⟩ := hs
  have hsp : (s.stack ++ [r]).length ≤ 16 := by simpa [State.sp] using h
  exact ⟨hpc, hsp, hmem, hfb, hres, hinfo, herr⟩

theorem State.Inv.pop (hs : s.Inv) : s.pop.2.Inv := by
  rcases s.pop_cases with ⟨-, hp⟩ | ⟨rest, r, hstack, hp⟩ <;> rw [hp]
  · exact hs
  · obtain ⟨hpc, hsp, hmem, hfb, hres, hinfo, herr⟩ := hs
    have hrest : rest.length ≤ 16 := by simp [State.sp, hstack] at hsp; omega
    exact ⟨hpc, hrest, hmem, hfb, hres, hinfo, herr⟩

theorem State.Inv.writeBytes (hs : s.Inv) (a : Nat) (bytes : List Byte) : (s.writeBytes a bytes).Inv := by
  obtain ⟨hpc, hsp, hmem, hfb, hres, hinfo, herr⟩ := hs
  have hw := State.writeBytes_wf bytes s a hmem
  rw [State.writeBytes_eq]
  exact ⟨hpc, hsp, hw, hfb, hres, hinfo, herr⟩

theorem State.Inv.setDisplay (hs : s.Inv) {fb : FrameBuffer}
    (hfb : FrameBuffer.wf (displayWidth s.variant) (displayHeight s.variant) fb) : (s.setDisplay fb).Inv := by
  obtain ⟨hpc, hsp, hmem, -, hres, hinfo, herr⟩ := hs
  exact ⟨hpc, hsp, hmem, hfb, hres, hinfo, herr⟩

/-- The buffer of the state is canonical (R30), for the operations that move its cells. -/
theorem State.Inv.wf_fb (hs : s.Inv) :
    FrameBuffer.wf (displayWidth s.variant) (displayHeight s.variant) s.fb := by
  obtain ⟨-, -, -, hfb, -⟩ := hs
  exact hfb

/-- A draw flips cells inside the buffer only (R261). -/
theorem State.Inv.draw (hs : s.Inv) (x y n : Nibble) : (s.draw x y n).Inv :=
  hs.setDisplay (plotCells_wf _ _ _ ⟨s.fb, false⟩ hs.wf_fb fun q hq => Sprite.cells_inside _ s q hq)

theorem State.Inv.setHighRes (hs : s.Inv) {b : Bool} (hb : b = true → s.variant = .extended) :
    (s.setHighRes b).Inv := by
  obtain ⟨hpc, hsp, hmem, hfb, -, hinfo, herr⟩ := hs
  exact ⟨hpc, hsp, hmem, hfb, hb, hinfo, herr⟩

/-- `info` is 0 in every outcome but IllegalInstruction (R34). -/
theorem ErrorKind.info_eq_zero (e : ErrorKind) (h : e.status.code ≠ .illegalInstruction) : e.status.info = 0 := by
  cases e
  case illegalInstruction w => exact absurd rfl h
  all_goals rfl

theorem State.Inv.raise (hs : s.Inv) (hstarted : s.started = true) (e : ErrorKind) : (s.raise e).Inv := by
  obtain ⟨hpc, hsp, hmem, hfb, hres, -, -⟩ := hs
  exact ⟨hpc, hsp, hmem, hfb, hres, e.info_eq_zero, fun _ => hstarted⟩

theorem State.Inv.extendedOnly (hs : s.Inv) (hstarted : s.started = true) (w : Word)
    (ht : s.variant = .extended → t.Inv) : (s.extendedOnly w t).Inv := by
  cases hv : s.variant
  case classic => rw [s.extendedOnly_classic w t hv]; exact hs.raise hstarted _
  case extended => rw [s.extendedOnly_extended w t hv]; exact ht hv

theorem State.Inv.fetchAdvance (hs : s.Inv) : s.fetchAdvance.Inv := by
  obtain ⟨hpc, hsp, hmem, hfb, hres, hinfo, -⟩ := hs
  have hstarted : State.Inv { s with started := true } := ⟨hpc, hsp, hmem, hfb, hres, hinfo, fun _ => rfl⟩
  exact hstarted.setPc _

/-! ## The invariants at reset (R39) -/

theorem State.inv_resetFor (var : Variant) : (State.resetFor var).Inv := by
  have hpc : (0x200 : Word).toNat < 4096 := by decide
  exact ⟨hpc, Nat.zero_le _, State.resetFor_mem_wf var, FrameBuffer.wf_nil _ _, nofun, fun _ => rfl,
    fun h => absurd rfl h⟩

theorem State.keyWaitInv_resetFor (var : Variant) : (State.resetFor var).KeyWaitInv :=
  fun h => absurd rfl h

/-- Settles O2: nothing is in memory, on the stack, on the display or in the latch, and `pc` is 0x200. -/
theorem resetSatisfiesTheInvariants : Obligations.ResetSatisfiesTheInvariants :=
  ⟨fun var => ⟨State.inv_resetFor var, State.keyWaitInv_resetFor var⟩, State.inv_resetFor _,
    State.keyWaitInv_resetFor _⟩

/-! ## Every step keeps the invariants (R38) -/

/-- An instruction keeps the invariants in a started machine: each one writes through operations that keep
them, and the last group writes no piece that they read. -/
theorem exec_inv {i : Instr} (hs : s.Inv) (hstarted : s.started = true) (h : exec i s = .next t) : t.Inv := by
  cases i
  case call nnn =>
    rcases exec_call s nnn with ⟨hsp, hc⟩ | ⟨-, hc⟩ <;> cases hc.symm.trans h
    · exact (hs.push hsp _).setPc _
    · exact hs.raise hstarted _
  case ret => cases h; exact hs.pop.setPc _
  case jp | jpOffset => cases h; exact hs.setPc _
  case seImm | sneImm | seReg | sneReg | skp | sknp => cases h; exact hs.skipIf _
  case ldVxK x =>
    rw [exec_ldVxK] at h
    split at h <;> cases h
    · exact hs
    · exact State.Inv.setPc (s := s.setLatch s.keys) hs _
  case cls => cases h; exact hs.setDisplay (FrameBuffer.wf_nil _ _)
  case drw | drw0 => cases h; exact hs.draw _ _ _
  case scr =>
    cases h
    exact hs.extendedOnly hstarted _ fun _ => hs.setDisplay (FrameBuffer.wf_scrollRight _ _ _ _ hs.wf_fb)
  case scl =>
    cases h
    exact hs.extendedOnly hstarted _ fun _ => hs.setDisplay (FrameBuffer.wf_scrollLeft _ _ _ _ hs.wf_fb)
  case scd n =>
    cases h
    exact hs.extendedOnly hstarted _ fun _ => hs.setDisplay (FrameBuffer.wf_scrollDown _ _ _ _ hs.wf_fb)
  case exit => cases h; exact hs.extendedOnly hstarted _ fun _ => hs.raise hstarted _
  case low | high => cases h; exact hs.extendedOnly hstarted _ fun hv => hs.setHighRes fun _ => hv
  case ldHf | saveFlags | loadFlags => cases h; exact hs.extendedOnly hstarted _ fun _ => hs
  case ldB => cases h; exact hs.writeBytes _ _
  case storeRegs x => cases h; rw [State.postIncrementI_eq]; exact hs.writeBytes _ _
  case loadRegs x => cases h; rw [State.postIncrementI_eq]; exact hs
  case orReg | andReg | xorReg => cases h; rw [State.setLogicResult_eq]; exact hs
  all_goals cases h; exact hs

theorem runStep_inv {keys : Word} {rnd : Byte} (hs : s.Inv) (h : s.runStep keys rnd = .next t) : t.Inv := by
  have hfetch : (s.sampleInputs keys rnd).fetchAdvance.Inv :=
    State.Inv.fetchAdvance (s := s.sampleInputs keys rnd) hs
  rcases runStep_cases s keys rnd with ⟨-, hr⟩ | ⟨-, -, hr⟩ | ⟨i, -, -, hr⟩ <;> rw [hr] at h
  · cases h; exact hs
  · cases h; exact hfetch.raise rfl _
  · exact exec_inv hfetch rfl h

theorem runCommand_inv {c : Command} (hs : s.Inv) (h : s.runCommand c = .next t) : t.Inv := by
  cases c
  case reset var => cases h; exact State.inv_resetFor var
  case loadFont bytes => obtain ⟨-, -, rfl⟩ := runLoadFont_eq_next_iff.1 h; exact hs.writeBytes _ _
  case loadBigFont bytes => obtain ⟨-, -, -, rfl⟩ := runLoadBigFont_eq_next_iff.1 h; exact hs.writeBytes _ _
  case loadProgram bytes => obtain ⟨-, -, rfl⟩ := runLoadProgram_eq_next_iff.1 h; exact hs.writeBytes _ _
  case step keys rnd => exact runStep_inv hs h
  case timerTick => cases h; exact hs

/-- Settles O3: the step runs one command, scheduled or drawn, and every command keeps the invariants. -/
theorem everyStepKeepsTheInvariant : Obligations.EveryStepKeepsTheInvariant := by
  intro s t hs h
  cases hp : s.pending with
  | nil =>
    rw [step_nil s hp] at h
    exact runCommand_inv (s := { s with draws := s.draws + 1 }) hs h
  | cons c cs =>
    rw [step_cons s c cs hp] at h
    exact runCommand_inv (s := { s with pending := cs }) hs h

/-! ## The values of reset (R39) -/

/-- Settles O1: RESET leaves `State.resetFor`, whose memory and display list nothing and whose banks are 0. -/
theorem resetGivesEveryFieldItsSpecValue : Obligations.ResetGivesEveryFieldItsSpecValue := by
  intro s var
  have hv (x : Nibble) : (s.runReset var).getV x = 0 := Vector.getElem_replicate x.isLt
  have huf (x : Nibble) : (s.runReset var).getUf x = 0 := Vector.getElem_replicate x.isLt
  exact ⟨_, rfl, rfl, fun _ => rfl, hv, rfl, rfl, rfl, rfl, rfl, fun _ _ => rfl, rfl, rfl, huf, rfl, rfl,
    by cases var <;> rfl⟩

/-! ## Which pieces of state an instruction writes -/

/-- In `Classic`, an instruction of the second table is its own illegal word (R96; log entry 9). -/
theorem exec_extendedOnly_classic {i : Instr} (hi : i.extendedOnly = true) (hv : s.variant = .classic) :
    exec i s = .next (s.raise (.illegalInstruction (encode i))) := by
  cases i
  case scd | scr | scl | exit | low | high | ldHf | saveFlags | loadFlags =>
    exact congrArg Host.Outcome.next (s.extendedOnly_classic _ _ hv)
  all_goals cases hi

/-- The state before, with those pieces taken from the state after that the rule of the instruction names
(R22-R35): in `Classic`, an instruction of the second table writes what an error writes. -/
def State.takeWrites (s t : State) (i : Instr) : State :=
  if s.variant = .classic ∧ i.extendedOnly = true then { s with status := t.status, updated := t.updated } else
  match i with
  | .ldImm _ _ | .addImm _ _ | .ldReg _ _ | .orReg _ _ | .andReg _ _ | .xorReg _ _ | .addReg _ _ | .subReg _ _
  | .shr _ _ | .subnReg _ _ | .shl _ _ | .rnd _ _ | .ldVxDt _ | .loadFlags _ => { s with v := t.v }
  | .jp _ | .jpOffset _ | .seImm _ _ | .sneImm _ _ | .seReg _ _ | .sneReg _ _ | .skp _ | .sknp _ =>
    { s with pc := t.pc }
  | .ret => { s with pc := t.pc, stack := t.stack }
  | .call _ =>
    if s.sp < 16 then { s with pc := t.pc, stack := t.stack }
    else { s with status := t.status, updated := t.updated }
  | .ldVxK _ => { s with v := t.v, pc := t.pc, latch := t.latch }
  | .ldDtVx _ => { s with dt := t.dt }
  | .ldStVx _ => { s with st := t.st }
  | .ldI _ | .addI _ | .ldF _ | .ldHf _ => { s with i := t.i }
  | .ldB _ => { s with mem := t.mem }
  | .storeRegs _ => { s with mem := t.mem, i := if s.variant = .classic then t.i else s.i }
  | .loadRegs _ => { s with v := t.v, i := if s.variant = .classic then t.i else s.i }
  | .cls | .scd _ | .scr | .scl => { s with fb := t.fb, updated := t.updated }
  | .drw _ _ _ | .drw0 _ _ => { s with v := t.v, fb := t.fb, updated := t.updated }
  | .exit => { s with status := t.status, updated := t.updated }
  | .low | .high => { s with highRes := t.highRes }
  | .saveFlags _ => { s with uf := t.uf }

/-- Only `Classic` moves `I` after Fx55 and Fx65 (R130). -/
theorem State.q_ldstIncrementsI (s : State) : s.q.ldstIncrementsI = true ↔ s.variant = .classic := by
  unfold State.q
  cases s.variant <;> decide

/-- Only `Classic` clears `VF` after 8xy1, 8xy2 and 8xy3 (R130). -/
theorem State.q_logicClearsVf (s : State) : s.q.logicClearsVf = true ↔ s.variant = .classic := by
  unfold State.q
  cases s.variant <;> decide

/-- An instruction writes the pieces its rule names, and no other. -/
theorem exec_eq_takeWrites {i : Instr} (h : exec i s = .next t) : t = s.takeWrites t i := by
  unfold State.takeWrites
  split
  · next hc => cases (exec_extendedOnly_classic hc.2 hc.1).symm.trans h; rfl
  · next hc =>
    cases i
    case call nnn =>
      rcases exec_call s nnn with ⟨hsp, he⟩ | ⟨hsp, he⟩ <;> cases he.symm.trans h
      · exact (if_pos hsp).symm
      · exact (if_neg (Nat.not_lt.2 hsp)).symm
    case ret =>
      rw [exec_ret] at h
      rcases s.pop_cases with ⟨-, hp⟩ | ⟨rest, r, -, hp⟩ <;> rw [hp] at h <;> cases h <;> rfl
    case ldVxK x =>
      rw [exec_ldVxK] at h
      split at h <;> cases h <;> rfl
    case orReg | andReg | xorReg => cases h; rw [State.setLogicResult_eq]
    case seImm | sneImm | seReg | sneReg | skp | sknp => cases h; rw [State.skipIf_eq]
    case ldB => cases h; rw [State.writeBytes_eq]
    case storeRegs x =>
      cases h
      rw [State.postIncrementI_eq, State.writeBytes_eq]
      simp only [State.q_ldstIncrementsI]
      split <;> rfl
    case loadRegs x =>
      cases h
      rw [State.postIncrementI_eq]
      simp only [State.q_ldstIncrementsI, State.setVUpTo_variant]
      split <;> rfl
    case scd | scr | scl | exit | low | high | ldHf | saveFlags | loadFlags =>
      have hv : s.variant = .extended := by
        cases hv : s.variant
        case classic => exact absurd ⟨hv, rfl⟩ hc
        case extended => rfl
      cases h
      rw [State.extendedOnly_extended _ _ _ hv]
      rfl
    all_goals cases h; rfl

theorem sameBytes_of_mem_eq (h : t.mem = s.mem) : SameBytes s t := fun _ => by
  rw [State.readByte, h, State.readByte]

/-- Settles O24, from the pieces each instruction writes: a clause that keeps a piece leaves out the
instructions that write it. -/
theorem everyOtherPieceOfStateHasOnlyItsWriters : Obligations.EveryOtherPieceOfStateHasOnlyItsWriters := by
  intro i s t h
  rw [exec_eq_takeWrites h]
  cases i
  case call nnn =>
    by_cases hsp : s.sp < 16 <;> simp [State.takeWrites, Instr.extendedOnly, hsp, sameBytes_of_mem_eq]
  case storeRegs | loadRegs | scd | scr | scl | exit | low | high | ldHf | saveFlags | loadFlags =>
    cases hv : s.variant <;> simp [State.takeWrites, Instr.extendedOnly, hv, sameBytes_of_mem_eq]
  all_goals simp [State.takeWrites, Instr.extendedOnly, sameBytes_of_mem_eq]

/-! ## Which general registers an instruction writes (R22) -/

theorem State.getV_congr (h : t.v = s.v) (k : Nibble) : t.getV k = s.getV k := by
  simp only [State.getV, h]

/-- Of the general registers a draw writes `VF` alone (R261). -/
theorem State.draw_getV {k : Nibble} (hk : k ≠ vf) (x y n : Nibble) : (s.draw x y n).getV k = s.getV k :=
  (State.setV_getV _ vf k _).trans (if_neg hk)

/-- Settles O23: a register that is neither the destination nor a flag is not reached by the write, and the
instructions of the last group leave the whole register file. -/
theorem onlyNamedRegistersChange : Obligations.OnlyNamedRegistersChange := by
  intro i s t k h hk
  cases i
  case ldImm x _ | addImm x _ | ldReg x _ | rnd x _ | ldVxDt x =>
    have hx : k ≠ x := by simpa [mayWriteV] using hk
    cases h
    rw [State.setV_getV, if_neg hx]
  case ldVxK x =>
    have hx : k ≠ x := by simpa [mayWriteV] using hk
    rw [exec_ldVxK] at h
    split at h <;> cases h
    · exact (s.setV_getV x k _).trans (if_neg hx)
    · rfl
  case orReg x _ | andReg x _ | xorReg x _ =>
    have hx : k ≠ x ∧ (s.variant = .classic → k ≠ vf) := by simpa [mayWriteV] using hk
    cases h
    rw [State.setLogicResult_getV, if_neg fun hc => hx.2 (s.q_logicClearsVf.1 hc.1) hc.2, if_neg hx.1]
  case addReg x _ | subReg x _ | shr x _ | subnReg x _ | shl x _ =>
    have hx : k ≠ x ∧ k ≠ vf := by simpa [mayWriteV] using hk
    cases h
    rw [State.setResultFlag_getV, if_neg hx.2, if_neg hx.1]
  case drw | drw0 =>
    cases h
    exact State.draw_getV (by simpa [mayWriteV] using hk) _ _ _
  case loadRegs x =>
    have hx : ¬ k ≤ x := by simpa [mayWriteV] using hk
    cases h
    rw [State.postIncrementI_eq]
    exact (s.setVUpTo_getV x k _).trans (if_neg hx)
  case loadFlags x =>
    have hx : ¬ k ≤ x := by simpa [mayWriteV] using hk
    cases h
    cases hv : s.variant
    case classic => rw [s.extendedOnly_classic _ _ hv, State.raise_getV]
    case extended => rw [s.extendedOnly_extended _ _ hv, State.setVUpTo_getV, if_neg hx]
  all_goals
    refine State.getV_congr ?_ k
    rw [exec_eq_takeWrites h, State.takeWrites]
    split_ifs <;> rfl

end Sys2Proof.Machine
end

section
/-! Proofs about memory (20_memory): what the loads write and when they are refused (R68, R69), and that a store
is seen by the next fetch (R73). -/

namespace Sys2Proof.Machine

variable {s t : State}

/-! ## Reads after a run of bytes (R63, R67) -/

theorem State.readByte_congr {a b : Nat} (h : a % 4096 = b % 4096) : s.readByte a = s.readByte b := by
  rw [← s.readByte_mod a, h, s.readByte_mod]

/-- A run of bytes that does not lap the memory leaves just its bytes, and the old bytes elsewhere. -/
theorem wroteBytes_writeBytes (a : Nat) {bytes : List Byte} (h : bytes.length ≤ 4096) :
    WroteBytes a bytes s (s.writeBytes a bytes) := by
  constructor
  · intro k b hk
    have hlt : k < bytes.length := (List.getElem?_eq_some_iff.1 hk).1
    have hoff : (a + k + 4096 - a % 4096) % 4096 = k := by omega
    rw [State.readByte_writeBytes bytes s a _ h, hoff, hk, Option.getD_some]
  · intro c hc
    have hout : bytes.length ≤ (c + 4096 - a % 4096) % 4096 := by
      by_contra hlt
      exact hc _ (Nat.not_le.1 hlt) (by omega)
    rw [State.readByte_writeBytes bytes s a c h, List.getElem?_eq_none hout, Option.getD_none]

/-! ## When a load is refused (R69) -/

theorem runLoadFont_refused_iff {bytes : List Byte} :
    (∃ r, s.runLoadFont bytes = .refused r) ↔ s.started = true ∨ bytes.length ≠ 80 := by
  simp only [State.runLoadFont, smallFontSize]
  split_ifs <;> simp [*]

theorem runLoadBigFont_refused_iff {bytes : List Byte} :
    (∃ r, s.runLoadBigFont bytes = .refused r) ↔
      s.started = true ∨ bytes.length ≠ 160 ∨ s.variant = .classic := by
  simp only [State.runLoadBigFont, bigFontSize]
  split_ifs <;> simp [*]

theorem runLoadProgram_refused_iff {bytes : List Byte} :
    (∃ r, s.runLoadProgram bytes = .refused r) ↔ s.started = true ∨ 3584 < bytes.length := by
  simp only [State.runLoadProgram, programLimit, ← Nat.not_le]
  split_ifs <;> simp [*]

/-- Settles O20, by the condition under which each load is refused. -/
theorem loadsOutsideTheProtocolAreRefused : Obligations.LoadsOutsideTheProtocolAreRefused := fun _ _ =>
  ⟨runLoadFont_refused_iff.2, runLoadBigFont_refused_iff.2, runLoadProgram_refused_iff.2⟩

/-! ## What a load writes (R68) -/

/-- An outcome that is one run of bytes writes its region and changes memory alone. -/
theorem exists_next_wroteBytes {o : Host.Outcome State Fault Refusal} {a : Nat} {bytes : List Byte}
    (ho : o = .next (s.writeBytes a bytes)) (hlen : bytes.length ≤ 4096) :
    ∃ t, o = .next t ∧ WroteBytes a bytes s t ∧ t = { s with mem := t.mem } :=
  ⟨_, ho, wroteBytes_writeBytes a hlen, State.writeBytes_eq bytes s a⟩

/-- Settles O19: a load that is not refused is one run of bytes at its base, and one after the first STEP is
refused. -/
theorem loadsWriteExactlyTheirRegions : Obligations.LoadsWriteExactlyTheirRegions := by
  intro s bytes
  refine ⟨fun hs => ⟨fun hlen => ?_, fun hv hlen => ?_, fun hlen => ?_⟩, fun hs => ?_, fun t ht => ?_⟩
  · exact exists_next_wroteBytes (runLoadFont_eq_next_iff.2 ⟨hs, hlen, rfl⟩) (by omega)
  · exact exists_next_wroteBytes (runLoadBigFont_eq_next_iff.2 ⟨hs, hv, hlen, rfl⟩) (by omega)
  · exact exists_next_wroteBytes (runLoadProgram_eq_next_iff.2 ⟨hs, hlen, rfl⟩) (by omega)
  · obtain ⟨hfont, hbig, hprogram⟩ := loadsOutsideTheProtocolAreRefused s bytes
    simp [hfont (.inl hs), hbig (.inl hs), hprogram (.inl hs)]
  · cases ht
    exact sameBytes_of_mem_eq rfl

/-! ## A store and the next fetch (R73, R123, R235) -/

/-- Byte `k` of the run Fx55 stores is `V[k]` (R235). -/
theorem State.getElem?_firstRegs {x k : Nibble} (h : k ≤ x) : (s.firstRegs x)[k.toNat]? = some (s.getV k) := by
  have hlt : k.toNat < x.toNat + 1 := Nat.lt_succ_of_le h
  simp [State.firstRegs, hlt]

theorem State.length_firstRegs (s : State) (x : Nibble) : (s.firstRegs x).length = x.toNat + 1 := by
  simp [State.firstRegs]

/-- The post-increment of `I` does not reach the fetch. -/
theorem State.postIncrementI_fetchWord (s : State) (x : Nibble) :
    (s.postIncrementI x).fetchWord = s.fetchWord := by
  rw [State.postIncrementI_eq]
  rfl

/-- Settles O21: the first two bytes of the run stand at `pc` and `pc + 1`, where the fetch reads. -/
theorem storeIsSeenByTheNextFetch : Obligations.StoreIsSeenByTheNextFetch := by
  intro s x hx hpc
  refine ⟨_, exec_storeRegs s x, ?_⟩
  obtain ⟨hstored, -⟩ := wroteBytes_writeBytes (s := s) s.i.toNat (bytes := s.firstRegs x)
    (by rw [State.length_firstRegs]; omega)
  have hV0 := hstored _ _ (State.getElem?_firstRegs (k := 0) (Nat.zero_le _))
  have hV1 := hstored _ _ (State.getElem?_firstRegs (k := 1) hx)
  have hpc' : (s.writeBytes s.i.toNat (s.firstRegs x)).pc = s.pc := by rw [State.writeBytes_eq]
  rw [State.postIncrementI_fetchWord, State.fetchWord, State.readWord, joinBytes_toNat, hpc',
    State.readByte_congr hpc.symm, State.readByte_congr (a := s.pc.toNat + 1) (b := s.i.toNat + 1) (by omega)]
  exact congrArg₂ (fun hi lo : Byte => hi.toNat * 256 + lo.toNat) hV0 hV1

end Sys2Proof.Machine
end

section
/-! Proofs about the encoding (30_encoding): decoder and encoder agree (R90-R98), the illegal words are the listed
ones, and a STEP that fetches one raises on it (R99, R332). -/

namespace Sys2Proof

variable {w : Word} {i : Instr} {o : Nat}

/-! ## The fields as numbers (R91) -/

theorem fieldOp_toNat (w : Word) : (fieldOp w).toNat = w.toNat / 4096 := by
  rw [fieldOp, BitVec.extractLsb'_toNat, Nat.shiftRight_eq_div_pow]
  omega

theorem fieldX_toNat (w : Word) : (fieldX w).toNat = w.toNat / 256 % 16 := by
  rw [fieldX, BitVec.extractLsb'_toNat, Nat.shiftRight_eq_div_pow]

theorem fieldY_toNat (w : Word) : (fieldY w).toNat = w.toNat / 16 % 16 := by
  rw [fieldY, BitVec.extractLsb'_toNat, Nat.shiftRight_eq_div_pow]

theorem fieldN_toNat (w : Word) : (fieldN w).toNat = w.toNat % 16 := by
  rw [fieldN, BitVec.extractLsb'_toNat, Nat.shiftRight_zero]

theorem fieldNN_toNat (w : Word) : (fieldNN w).toNat = w.toNat % 256 := by
  rw [fieldNN, BitVec.extractLsb'_toNat, Nat.shiftRight_zero]

theorem fieldNNN_toNat (w : Word) : (fieldNNN w).toNat = w.toNat % 4096 := by
  rw [fieldNNN, BitVec.extractLsb'_toNat, Nat.shiftRight_zero]

/-! ## A word from the values the decoder has matched

The decoder matches a field by its number, and the encoder packs the field of that number. -/

theorem ofNat_eq_of_toNat_eq {m k : Nat} {b : BitVec m} (h : b.toNat = k) : BitVec.ofNat m k = b := by
  rw [← h, BitVec.ofNat_toNat, BitVec.setWidth_eq]

theorem packNNN_of_op (ho : (fieldOp w).toNat = o) : packNNN (BitVec.ofNat 4 o) (fieldNNN w) = w := by
  rw [ofNat_eq_of_toNat_eq ho, packNNN_fields]

theorem packNNN_of_op_address {a : Nat} (ho : (fieldOp w).toNat = o) (ha : (fieldNNN w).toNat = a) :
    packNNN (BitVec.ofNat 4 o) (BitVec.ofNat 12 a) = w := by
  rw [ofNat_eq_of_toNat_eq ha, packNNN_of_op ho]

theorem packXNN_of_op (ho : (fieldOp w).toNat = o) :
    packXNN (BitVec.ofNat 4 o) (fieldX w) (fieldNN w) = w := by
  rw [ofNat_eq_of_toNat_eq ho, packXNN_fields]

theorem packXNN_of_op_function {f : Nat} (ho : (fieldOp w).toNat = o) (hf : (fieldNN w).toNat = f) :
    packXNN (BitVec.ofNat 4 o) (fieldX w) (BitVec.ofNat 8 f) = w := by
  rw [ofNat_eq_of_toNat_eq hf, packXNN_of_op ho]

theorem packXYN_of_op {x y n : Nibble} (ho : (fieldOp w).toNat = o) (hx : fieldX w = x) (hy : fieldY w = y)
    (hn : fieldN w = n) : packXYN (BitVec.ofNat 4 o) x y n = w := by
  rw [ofNat_eq_of_toNat_eq ho, ← hx, ← hy, ← hn, packXYN_fields]

/-! ## Decode of encode (R95, R96) -/

/-- The common table reads back its own instructions. -/
theorem decodeCommon_encode (hw : i.wellFormed = true) (he : i.extendedOnly = false) :
    decodeCommon (encode i) = some i := by
  cases i
  case cls | ret => decide
  case drw x y n =>
    have hn : n ≠ 0#4 := by simpa [Instr.wellFormed] using hw
    simp [encode, decodeCommon, hn]
  case scd | scr | scl | exit | low | high | ldHf | saveFlags | loadFlags => cases he
  all_goals simp [encode, decodeCommon, decodeArith, decodeMisc]

/-- The tables do not overlap: the common table reads no word of the second (R94). -/
theorem decodeCommon_encode_extendedOnly (he : i.extendedOnly = true) : decodeCommon (encode i) = none := by
  cases i
  case scr | scl | exit | low | high => decide
  case scd n => revert n; decide
  case ldHf | saveFlags | loadFlags => simp [encode, decodeCommon, decodeMisc]
  all_goals cases he

/-- The second table reads back its own instructions. -/
theorem decodeExtended_encode (he : i.extendedOnly = true) : decodeExtended (encode i) = some i := by
  cases i
  case scr | scl | exit | low | high => decide
  case scd | ldHf | saveFlags | loadFlags => simp [encode, decodeExtended]
  all_goals cases he

/-! ## Encode of decode (R94-R98): one case for each row of the tables -/

theorem encode_of_decodeArith {x y n : Nibble} (h : decodeArith x y n = some i) :
    i.wellFormed = true ∧ i.extendedOnly = false ∧ encode i = packXYN 0x8 x y n := by
  unfold decodeArith at h
  split at h <;> cases h
  all_goals
    next hn =>
    rw [← ofNat_eq_of_toNat_eq hn]
    exact ⟨rfl, rfl, rfl⟩

theorem encode_of_decodeMisc {x : Nibble} {nn : Byte} (h : decodeMisc x nn = some i) :
    i.wellFormed = true ∧ i.extendedOnly = false ∧ encode i = packXNN 0xF x nn := by
  unfold decodeMisc at h
  split at h <;> cases h
  all_goals
    next hnn =>
    rw [← ofNat_eq_of_toNat_eq hnn]
    exact ⟨rfl, rfl, rfl⟩

theorem encode_of_decodeCommon (h : decodeCommon w = some i) :
    i.wellFormed = true ∧ i.extendedOnly = false ∧ encode i = w := by
  unfold decodeCommon at h
  split at h <;> dsimp only at h
  case h_1 hop =>
    split at h <;> cases h
    all_goals next hnnn => exact ⟨rfl, rfl, packNNN_of_op_address hop hnnn⟩
  case h_2 hop | h_3 hop | h_11 hop | h_12 hop =>
    cases h
    exact ⟨rfl, rfl, packNNN_of_op hop⟩
  case h_4 hop | h_5 hop | h_7 hop | h_8 hop | h_13 hop =>
    cases h
    exact ⟨rfl, rfl, packXNN_of_op hop⟩
  case h_6 hop | h_10 hop =>
    split at h <;> cases h
    next hn => exact ⟨rfl, rfl, packXYN_of_op hop rfl rfl hn⟩
  case h_9 hop =>
    obtain ⟨hw, he, henc⟩ := encode_of_decodeArith h
    exact ⟨hw, he, henc.trans (packXYN_of_op hop rfl rfl rfl)⟩
  case h_14 hop =>
    split at h <;> cases h
    case isTrue hn => exact ⟨rfl, rfl, packXYN_of_op hop rfl rfl hn⟩
    case isFalse hn => exact ⟨bne_iff_ne.2 hn, rfl, packXYN_of_op hop rfl rfl rfl⟩
  case h_15 hop =>
    split at h <;> cases h
    all_goals next hnn => exact ⟨rfl, rfl, packXNN_of_op_function hop hnn⟩
  case h_16 =>
    have hop : (fieldOp w).toNat = 0xF := by
      simp only [imp_false] at *
      omega
    obtain ⟨hw, he, henc⟩ := encode_of_decodeMisc h
    exact ⟨hw, he, henc.trans (packXNN_of_op hop)⟩

theorem encode_of_decodeExtended (h : decodeExtended w = some i) :
    i.wellFormed = true ∧ i.extendedOnly = true ∧ encode i = w := by
  unfold decodeExtended at h
  split at h <;> dsimp only at h
  case h_1 hop =>
    by_cases hscd : fieldX w = 0 ∧ fieldY w = 0xC#4
    · rw [if_pos hscd] at h
      obtain ⟨hx, hy⟩ := hscd
      cases h
      exact ⟨rfl, rfl, packXYN_of_op hop hx hy rfl⟩
    · rw [if_neg hscd] at h
      split at h <;> cases h
      all_goals next hnnn => exact ⟨rfl, rfl, packNNN_of_op_address hop hnnn⟩
  case h_2 hop =>
    split at h <;> cases h
    all_goals next hnn => exact ⟨rfl, rfl, packXNN_of_op_function hop hnn⟩
  case h_3 => cases h

/-! ## Decoder and encoder agree -/

/-- What a variant decodes: the words of its legal instructions, each to its own instruction. -/
theorem decodeWord_eq_some_iff {v : Variant} :
    decodeWord v w = some i ↔ i.legalIn v = true ∧ encode i = w := by
  simp only [Instr.legalIn, Bool.and_eq_true, Bool.or_eq_true, beq_iff_eq, Bool.not_eq_true']
  constructor
  · intro h
    unfold decodeWord at h
    split at h
    case h_1 hc =>
      cases h
      obtain ⟨hw, he, henc⟩ := encode_of_decodeCommon hc
      exact ⟨⟨hw, .inr he⟩, henc⟩
    case h_2 =>
      cases v
      case classic => cases h
      case extended =>
        obtain ⟨hw, -, henc⟩ := encode_of_decodeExtended h
        exact ⟨⟨hw, .inl rfl⟩, henc⟩
  · rintro ⟨⟨hw, hv⟩, rfl⟩
    unfold decodeWord
    cases he : i.extendedOnly
    case false => rw [decodeCommon_encode hw he]
    case true =>
      obtain rfl : v = .extended := hv.resolve_right (by simp [he])
      rw [decodeCommon_encode_extendedOnly he]
      exact decodeExtended_encode he

/-- An instruction's bytes in memory order decode as its word does (R64, R90). -/
theorem decodeBytes_encodeBytes_append {v : Variant} (rest : List Byte) (h : decodeWord v (encode i) = some i) :
    decodeBytes v (encodeBytes i ++ rest) = .instr i rest := by
  simp only [encodeBytes, List.cons_append, List.nil_append, decodeBytes, joinBytes_bytes, h]

/-- Settles O5: a legal instruction is what its word decodes to, and its two bytes join to that word. -/
theorem decodeEncodeRoundTrip : Obligations.DecodeEncodeRoundTrip := by
  intro var i rest hi
  have hword : decodeWord var (encode i) = some i := decodeWord_eq_some_iff.2 ⟨hi, rfl⟩
  exact ⟨hword, decodeBytes_encodeBytes_append rest hword⟩

/-- The word of an instruction matches the instruction's row (R95, R96), by the format of the row (R92). -/
theorem encode_and_rowMask (i : Instr) : encode i &&& i.rowMask = i.rowBits := by
  cases i
  case cls | ret | scr | scl | exit | low | high => decide
  case jp | call | ldI | jpOffset => exact Laws.packNNN_and _ _
  case seImm | sneImm | ldImm | addImm | rnd => exact Laws.packXNN_and _ _ _
  case drw => exact Laws.packXYN_and _ _ _ _
  case scd => exact Laws.packXYN_and_n _ _ _ _
  case seReg | sneReg | ldReg | orReg | andReg | xorReg | addReg | subReg | shr | subnReg | shl | drw0 =>
    exact Laws.packXYN_and_function _ _ _ _
  all_goals exact Laws.packXNN_and_function _ _ _

/-- Settles O6: a decoded word is the word of a legal instruction, and that word matches the instruction's row. -/
theorem decodedWordMatchesItsRowAndReencodes : Obligations.DecodedWordMatchesItsRowAndReencodes := by
  intro var w i h
  obtain ⟨hi, rfl⟩ := decodeWord_eq_some_iff.1 h
  exact ⟨hi, encode_and_rowMask i, rfl⟩

/-- Settles O8: the decoder evaluates to the row of each word. -/
theorem sampleWordsDecode : Obligations.SampleWordsDecode := by
  unfold Obligations.SampleWordsDecode
  decide

/-! ## The words no row matches (R99) -/

/-- The words that no row of the common table matches, as R99 lists them. -/
def NoCommonRow (w : Word) : Prop :=
  (w.toNat / 4096 = 0 ∧ w ≠ 0x00E0 ∧ w ≠ 0x00EE) ∨
  ((w.toNat / 4096 = 5 ∨ w.toNat / 4096 = 9) ∧ w.toNat % 16 ≠ 0) ∨
  (w.toNat / 4096 = 8 ∧ w.toNat % 16 ∈ [0x8, 0x9, 0xA, 0xB, 0xC, 0xD, 0xF]) ∨
  (w.toNat / 4096 = 0xE ∧ w.toNat % 256 ∉ [0x9E, 0xA1]) ∨
  (w.toNat / 4096 = 0xF ∧ w.toNat % 256 ∉ [0x07, 0x0A, 0x15, 0x18, 0x1E, 0x29, 0x33, 0x55, 0x65])

/-- The words of the second table, as R99 lists them. -/
def SecondTableWord (w : Word) : Prop :=
  (0x00C0 ≤ w.toNat ∧ w.toNat ≤ 0x00CF) ∨ (0x00FB ≤ w.toNat ∧ w.toNat ≤ 0x00FF) ∨
  (w.toNat / 4096 = 0xF ∧ w.toNat % 256 ∈ [0x30, 0x75, 0x85])

theorem toNat_eq_fieldNNN_of_op_zero (hop : (fieldOp w).toNat = 0) : w.toNat = (fieldNNN w).toNat := by
  rw [fieldOp_toNat] at hop
  rw [fieldNNN_toNat]
  omega

/-- Where `op = 0`, the fields that SCD fixes hold of the words `00Cn` (R96). -/
theorem scd_fields_iff (hop : (fieldOp w).toNat = 0) :
    (fieldX w = 0 ∧ fieldY w = 0xC#4) ↔ 0x00C0 ≤ w.toNat ∧ w.toNat ≤ 0x00CF := by
  simp only [BitVec.toNat_eq, BitVec.ofNat_eq_ofNat, BitVec.toNat_ofNat, fieldX_toNat, fieldY_toNat]
  rw [fieldOp_toNat] at hop
  omega

theorem decodeArith_eq_none_iff {x y n : Nibble} :
    decodeArith x y n = none ↔ n.toNat ∈ [0x8, 0x9, 0xA, 0xB, 0xC, 0xD, 0xF] := by
  unfold decodeArith
  split
  case h_10 =>
    simp only [imp_false, List.mem_cons, List.not_mem_nil, true_iff] at *
    omega
  all_goals simp [*]

theorem decodeMisc_eq_none_iff {x : Nibble} {nn : Byte} :
    decodeMisc x nn = none ↔ nn.toNat ∉ [0x07, 0x0A, 0x15, 0x18, 0x1E, 0x29, 0x33, 0x55, 0x65] := by
  unfold decodeMisc
  split <;> simp_all

theorem decodeCommon_eq_none_iff : decodeCommon w = none ↔ NoCommonRow w := by
  unfold decodeCommon NoCommonRow
  simp only [← fieldOp_toNat, ← fieldN_toNat, ← fieldNN_toNat]
  split
  case h_1 hop =>
    simp only [hop, ne_eq, BitVec.toNat_eq, toNat_eq_fieldNNN_of_op_zero hop]
    split <;> simp_all
  case h_6 hop | h_10 hop => simp [hop, BitVec.toNat_eq]
  case h_9 hop => simp [hop, decodeArith_eq_none_iff]
  case h_14 hop => simp [hop, ite_eq_iff]
  case h_15 hop =>
    simp only [hop]
    split <;> simp_all
  case h_16 =>
    have hop : (fieldOp w).toNat = 0xF := by
      simp only [imp_false] at *
      omega
    simp [hop, decodeMisc_eq_none_iff]
  all_goals next hop => simp [hop]

theorem decodeExtended_eq_none_iff : decodeExtended w = none ↔ ¬ SecondTableWord w := by
  unfold decodeExtended SecondTableWord
  simp only [← fieldNN_toNat]
  split
  case h_1 hop =>
    simp only [scd_fields_iff hop, toNat_eq_fieldNNN_of_op_zero hop]
    split
    case isTrue h => simp [h]
    case isFalse h =>
      split
      case h_6 =>
        simp only [imp_false, true_iff] at *
        omega
      all_goals next hnnn => simp [hnnn]
  case h_2 hop =>
    rw [fieldOp_toNat] at hop
    have hlow : ¬ w.toNat ≤ 0x00CF ∧ ¬ w.toNat ≤ 0x00FF := by omega
    simp only [hop, hlow]
    split <;> simp_all
  case h_3 h0 hF =>
    rw [imp_false, fieldOp_toNat] at h0 hF
    refine iff_of_true rfl ?_
    omega

theorem decodeWord_classic_eq_none_iff : decodeWord .classic w = none ↔ NoCommonRow w := by
  rw [← decodeCommon_eq_none_iff, decodeWord]
  cases decodeCommon w <;> simp

theorem decodeWord_extended_eq_none_iff :
    decodeWord .extended w = none ↔ NoCommonRow w ∧ ¬ SecondTableWord w := by
  rw [← decodeCommon_eq_none_iff, ← decodeExtended_eq_none_iff, decodeWord]
  cases decodeCommon w <;> simp

/-! ## A STEP on an illegal word (R332) -/

theorem Machine.runStep_illegal {s : Machine.State} {keys : Word} {rnd : Byte}
    (hrun : s.status.code = .running) (hd : decodeWord s.variant s.fetchWord = none) :
    s.runStep keys rnd =
      .next ((s.sampleInputs keys rnd).fetchAdvance.raise (.illegalInstruction s.fetchWord)) := by
  rcases Machine.runStep_cases s keys rnd with ⟨hlatched, -⟩ | ⟨-, -, h⟩ | ⟨i, -, hi, -⟩
  · exact absurd hrun hlatched
  · exact h
  · cases hd.symm.trans hi

/-- Settles O7: each table misses the words listed for it, and a STEP raises on a word its variant misses. -/
theorem illegalWordsAreExactlyTheListedOnes : Obligations.IllegalWordsAreExactlyTheListedOnes := by
  intro w
  refine ⟨decodeWord_classic_eq_none_iff, decodeWord_extended_eq_none_iff, ?_⟩
  rintro s keys rnd hrun rfl hd
  exact ⟨_, Machine.runStep_illegal hrun hd, rfl⟩

end Sys2Proof
end

section
/-! Proofs about the engine (40_engine): which command a step runs (R120), the STEP cycle (R122-R129), what reads
the inputs (R121), when `updated` is set (R127), what an error writes (R128), and the parked program (R133). -/

namespace Sys2Proof.Machine

variable {s t : State} {i : Instr} {keys : Word} {rnd : Byte}

/-! ## What reads the inputs of the STEP (R121) -/

/-- The state with other inputs of the STEP. -/
def State.withInputs (s : State) (keys : Word) (rnd : Byte) : State := { s with keys := keys, rnd := rnd }

theorem State.withInputs_ite (c : Prop) [Decidable c] (a b : State) :
    (if c then a else b).withInputs keys rnd = if c then a.withInputs keys rnd else b.withInputs keys rnd :=
  apply_ite (fun u : State => u.withInputs keys rnd) c a b

theorem State.skipIf_withInputs (c : Bool) :
    (s.skipIf c).withInputs keys rnd = (s.withInputs keys rnd).skipIf c := by
  rw [State.skipIf, State.withInputs_ite]; rfl

theorem State.setLogicResult_withInputs (x : Nibble) (r : Byte) :
    (s.setLogicResult x r).withInputs keys rnd = (s.withInputs keys rnd).setLogicResult x r := by
  rw [State.setLogicResult, State.withInputs_ite]; rfl

theorem State.postIncrementI_withInputs (x : Nibble) :
    (s.postIncrementI x).withInputs keys rnd = (s.withInputs keys rnd).postIncrementI x := by
  rw [State.postIncrementI, State.withInputs_ite]; rfl

theorem State.writeBytes_withInputs (s : State) (a : Nat) (bytes : List Byte) :
    (s.writeBytes a bytes).withInputs keys rnd = (s.withInputs keys rnd).writeBytes a bytes := by
  induction bytes generalizing s a with
  | nil => rfl
  | cons b bytes ih => exact ih (s.writeByte a b) (a + 1)

theorem State.extendedOnly_withInputs (w : Word) (u : State) :
    (s.extendedOnly w u).withInputs keys rnd =
      (s.withInputs keys rnd).extendedOnly w (u.withInputs keys rnd) := by
  cases hv : s.variant
  case classic =>
    rw [s.extendedOnly_classic w u hv, State.extendedOnly_classic (s.withInputs keys rnd) w _ hv]; rfl
  case extended => rw [s.extendedOnly_extended w u hv, State.extendedOnly_extended (s.withInputs keys rnd) w _ hv]

/-- The popped entry and the rest of the stack do not depend on the inputs. -/
theorem State.pop_withInputs : (s.withInputs keys rnd).pop = (s.pop.1, s.pop.2.withInputs keys rnd) := by
  unfold State.pop State.withInputs
  cases s.stack.getLast? <;> rfl

/-- An instruction does the same with other inputs of the STEP, where it does not read those that differ. -/
theorem exec_withInputs (hkeys : keys = s.keys ∨ ∀ x, i ≠ .skp x ∧ i ≠ .sknp x ∧ i ≠ .ldVxK x)
    (hrnd : rnd = s.rnd ∨ ∀ x nn, i ≠ .rnd x nn) (h : exec i s = .next t) :
    exec i (s.withInputs keys rnd) = .next (t.withInputs keys rnd) := by
  cases i
  case skp x | sknp x =>
    obtain rfl : keys = s.keys := hkeys.resolve_right fun hx => by simpa using hx x
    cases h; rw [State.skipIf_withInputs]; rfl
  case ldVxK x =>
    obtain rfl : keys = s.keys := hkeys.resolve_right fun hx => by simpa using hx x
    cases h; rw [State.withInputs_ite]; rfl
  case rnd x nn =>
    obtain rfl : rnd = s.rnd := hrnd.resolve_right fun hx => hx x nn rfl
    cases h; rfl
  case call nnn =>
    have hother := exec_call (s.withInputs keys rnd) nnn
    rcases exec_call s nnn with ⟨hsp, he⟩ | ⟨hsp, he⟩ <;> cases he.symm.trans h
    · exact (hother.resolve_right fun hfull => Nat.not_lt.2 hfull.1 hsp).2
    · exact (hother.resolve_left fun hfree => Nat.not_lt.2 hsp hfree.1).2
  case ret => cases h; rw [exec_ret, State.pop_withInputs]; rfl
  case seImm | sneImm | seReg | sneReg => cases h; rw [State.skipIf_withInputs]; rfl
  case orReg | andReg | xorReg => cases h; rw [State.setLogicResult_withInputs]; rfl
  case ldB => cases h; rw [State.writeBytes_withInputs]; rfl
  case storeRegs => cases h; rw [State.postIncrementI_withInputs, State.writeBytes_withInputs]; rfl
  case loadRegs => cases h; rw [State.postIncrementI_withInputs]; rfl
  case scd | scr | scl | exit | low | high | ldHf | saveFlags | loadFlags =>
    cases h; rw [State.extendedOnly_withInputs]; rfl
  all_goals cases h; rfl

/-- Settles O14: other `keys` with the same `rnd`, and other `rnd` with the same `keys`. -/
theorem onlyTheirInstructionsReadTheInputs : Obligations.OnlyTheirInstructionsReadTheInputs := by
  intro i s t h
  constructor
  · intro keys hi
    have ht : t.withInputs keys s.rnd = { t with keys := keys } := by rw [exec_unwritten_fields h]; rfl
    exact ht ▸ exec_withInputs (.inr hi) (.inl rfl) h
  · intro rnd hi
    have ht : t.withInputs s.keys rnd = { t with rnd := rnd } := by rw [exec_unwritten_fields h]; rfl
    exact ht ▸ exec_withInputs (.inl rfl) (.inr hi) h

/-! ## What an instruction does to `status` and `updated` (R127, R128) -/

/-- The instructions that set `updated` (R127). -/
def SetsUpdated (i : Instr) : Prop :=
  i = .cls ∨ (∃ x y n, i = .drw x y n) ∨ (∃ x y, i = .drw0 x y) ∨ i = .scr ∨ i = .scl ∨ ∃ n, i = .scd n

/-- An instruction raises an error and does nothing else, or it keeps the status, and then `updated` too unless
it is a display instruction. -/
theorem exec_raise_or_keeps_status (h : exec i s = .next t) :
    (∃ e, t = s.raise e) ∨ t.status = s.status ∧ (t.updated = s.updated ∨ SetsUpdated i) := by
  by_cases hc : s.variant = .classic ∧ i.extendedOnly = true
  · cases (exec_extendedOnly_classic hc.2 hc.1).symm.trans h
    exact .inl ⟨_, rfl⟩
  have ht := exec_eq_takeWrites h
  unfold State.takeWrites at ht
  rw [if_neg hc] at ht
  have hstatus := congrArg State.status ht
  have hupdated := congrArg State.updated ht
  cases i
  case call nnn =>
    rcases exec_call s nnn with ⟨-, he⟩ | ⟨-, he⟩ <;> cases he.symm.trans h
    · exact .inr ⟨rfl, .inl rfl⟩
    · exact .inl ⟨_, rfl⟩
  case exit =>
    have hv : s.variant = .extended := by
      cases hv : s.variant
      case classic => exact absurd ⟨hv, rfl⟩ hc
      case extended => rfl
    cases h
    exact .inl ⟨_, s.extendedOnly_extended _ _ hv⟩
  case cls | drw | drw0 | scr | scl | scd =>
    exact .inr ⟨hstatus, .inr (by simp [SetsUpdated])⟩
  all_goals exact .inr ⟨hstatus, .inl hupdated⟩

/-- A display instruction sets `updated`, in a variant that has it. -/
theorem exec_updated_of_setsUpdated (hi : SetsUpdated i) (hv : i.extendedOnly = true → s.variant = .extended)
    (h : exec i s = .next t) : t.updated = true := by
  rcases hi with rfl | ⟨x, y, n, rfl⟩ | ⟨x, y, rfl⟩ | rfl | rfl | ⟨n, rfl⟩ <;> cases h
  · rfl
  · rfl
  · rfl
  all_goals rw [s.extendedOnly_extended _ _ (hv rfl)]; rfl

/-- From `updated = 0`, the display instructions set it and no other instruction does. -/
theorem exec_updated_iff (hs : s.updated = false) (hv : i.extendedOnly = true → s.variant = .extended)
    (h : exec i s = .next t) : t.updated = true ↔ SetsUpdated i := by
  refine ⟨fun ht => ?_, fun hi => exec_updated_of_setsUpdated hi hv h⟩
  rcases exec_raise_or_keeps_status h with ⟨e, rfl⟩ | ⟨-, hu | hi⟩
  · cases ht
  · rw [hu, hs] at ht; cases ht
  · exact hi

/-- An instruction that a variant decodes is in the variant's tables (R94, R96). -/
theorem variant_of_decodeWord {v : Variant} {w : Word} (hd : decodeWord v w = some i)
    (hi : i.extendedOnly = true) : v = .extended := by
  obtain ⟨hl, -⟩ := decodeWord_eq_some_iff.1 hd
  simpa [Instr.legalIn, hi] using (Bool.and_eq_true_iff.1 hl).2

/-! ## The STEP, by the state it finds (R122, R123, R129) -/

theorem runStep_latched (hs : s.status.code ≠ .running) :
    s.runStep keys rnd = .next { s with updated := false } := by
  rcases runStep_cases s keys rnd with ⟨-, h⟩ | ⟨hrun, -⟩ | ⟨i, hrun, -⟩
  · exact h
  all_goals exact absurd hrun hs

theorem runStep_decoded (hrun : s.status.code = .running) (hd : decodeWord s.variant s.fetchWord = some i) :
    s.runStep keys rnd = exec i (s.sampleInputs keys rnd).fetchAdvance := by
  rcases runStep_cases s keys rnd with ⟨hs, -⟩ | ⟨-, hn, -⟩ | ⟨j, -, hj, h⟩
  · exact absurd hrun hs
  · cases hn.symm.trans hd
  · cases hj.symm.trans hd; exact h

/-- A write to `pc` is modulo 4096, also where the sum left 16 bits (R24, R123). -/
theorem State.fetchAdvance_pc_toNat (s : State) : s.fetchAdvance.pc.toNat = (s.pc.toNat + 2) % 4096 := by
  rw [State.fetchAdvance_pc, BitVec.toNat_umod, BitVec.toNat_add]
  exact Nat.mod_mod_of_dvd _ (by decide)

/-- A STEP that raises does what the fetch does, and then only raises (R128). -/
theorem runStep_eq_raise (hrun : s.status.code = .running) (h : s.runStep keys rnd = .next t)
    (ht : t.status.code ≠ .running) : ∃ e, t = (s.sampleInputs keys rnd).fetchAdvance.raise e := by
  cases hd : decodeWord s.variant s.fetchWord with
  | none => cases (runStep_illegal hrun hd).symm.trans h; exact ⟨_, rfl⟩
  | some i =>
    rw [runStep_decoded hrun hd] at h
    rcases exec_raise_or_keeps_status h with he | ⟨hs, -⟩
    · exact he
    · exact absurd (hs ▸ hrun) ht

/-- Settles O17: the STEP that raises is the fetch and the raise. -/
theorem errorsWriteOnlyTheStatus : Obligations.ErrorsWriteOnlyTheStatus := by
  intro s t keys rnd hrun h ht
  obtain ⟨e, rfl⟩ := runStep_eq_raise hrun h ht
  exact ⟨(s.sampleInputs keys rnd).fetchAdvance_pc_toNat, sameBytes_of_mem_eq rfl, rfl⟩

/-- A STEP overwrites or clears the `updated` bit of the STEP before and never reads it (R127). -/
theorem runStep_of_updated (s : State) (b : Bool) (keys : Word) (rnd : Byte) :
    State.runStep { s with updated := b } keys rnd = s.runStep keys rnd := rfl

/-- Settles O15, by what the STEP finds: a latched machine, an illegal word, or an instruction, which runs from
`updated = 0`. -/
theorem updatedBitIsSetByDisplayInstructions : Obligations.UpdatedBitIsSetByDisplayInstructions := by
  intro s keys rnd
  suffices hstep : ∃ t, s.runStep keys rnd = .next t ∧ (t.updated = true ↔ s.status.code = .running ∧
      ∃ i, decodeWord s.variant s.fetchWord = some i ∧ SetsUpdated i) by
    obtain ⟨t, ht, hu⟩ := hstep
    exact ⟨t, ht, hu, fun b => (runStep_of_updated s b keys rnd).trans ht⟩
  rcases runStep_cases s keys rnd with ⟨hs, h⟩ | ⟨-, hd, h⟩ | ⟨i, hrun, hd, h⟩
  · exact ⟨_, h, by simp [hs]⟩
  · exact ⟨_, h, by simp [hd]⟩
  · obtain ⟨t, ht⟩ := exec_next (s.sampleInputs keys rnd).fetchAdvance i
    have hu := exec_updated_iff (s := (s.sampleInputs keys rnd).fetchAdvance) rfl (variant_of_decodeWord hd) ht
    exact ⟨t, h.trans ht, by simpa [hrun, hd] using hu⟩

theorem addrWord_toNat (nnn : Addr) : (addrWord nnn).toNat = nnn.toNat :=
  BitVec.toNat_setWidth_of_le (by decide)

/-- Settles O22: the fetch moves `pc` on and the jump sets it back to the address it had. -/
theorem jumpToItselfParksTheProgram : Obligations.JumpToItselfParksTheProgram := by
  intro s nnn keys rnd hrun hpc hw
  have hl : (Instr.jp nnn).legalIn s.variant = true := by cases s.variant <;> rfl
  have hd : decodeWord s.variant s.fetchWord = some (.jp nnn) := decodeWord_eq_some_iff.2 ⟨hl, hw.symm⟩
  have hback : addrWord nnn % 4096 = s.pc := by
    apply BitVec.eq_of_toNat_eq
    rw [BitVec.toNat_umod, addrWord_toNat, hpc]
    exact Nat.mod_eq_of_lt nnn.isLt
  calc s.runStep keys rnd
      = .next { s with keys := keys, rnd := rnd, updated := false, started := true, pc := addrWord nnn % 4096 } :=
        runStep_decoded hrun hd
    _ = .next { s with keys := keys, rnd := rnd, updated := false, started := true } := by rw [hback]

/-- Settles O11: a latched STEP clears `updated` and writes nothing else. -/
theorem stepInALatchedMachineChangesNothing : Obligations.StepInALatchedMachineChangesNothing :=
  fun _ _ _ hs => ⟨_, runStep_latched hs, rfl, rfl, sameBytes_of_mem_eq rfl⟩

/-! ## One step of the machine, by the next command (R120, R352, R357) -/

/-- Settles O10: the oldest command of the schedule, or the host's free choice. -/
theorem stepRunsTheNextCommand : Obligations.StepRunsTheNextCommand :=
  fun s => ⟨step_cons s, step_nil s⟩

/-- Where the next command is a STEP, scheduled or freely chosen, the step is that STEP, run on a state that
differs in the model's own fields alone. -/
theorem step_eq_runStep {s s' : State}
    (hnext : (s.pending = .step keys rnd :: s'.pending ∧ s' = { s with pending := s'.pending }) ∨
      (s.pending = [] ∧ Config.freeCommand s.draws = .step keys rnd ∧ s' = { s with draws := s.draws + 1 })) :
    step s = s'.runStep keys rnd ∧ s' = { s with pending := s'.pending, draws := s'.draws } := by
  rcases hnext with ⟨hp, hs'⟩ | ⟨hp, hc, hs'⟩
  · rw [step_cons s _ _ hp, ← hs']
    exact ⟨rfl, by rw [hs']⟩
  · rw [step_nil s hp, hc, ← hs']
    exact ⟨rfl, by rw [hs']⟩

/-- Settles O9: the step is a STEP, and the STEP is split by the state and the word it finds; the fetch leaves the
state that `exec` runs on. -/
theorem stepRunsTheDecodedInstruction : Obligations.StepRunsTheDecodedInstruction := by
  intro s s' keys rnd hnext
  obtain ⟨hstep, hs'⟩ := step_eq_runStep hnext
  have hcode : s'.status.code = s.status.code := by rw [hs']
  have hpc : s'.pc = s.pc := by rw [hs']
  have hword : s'.fetchWord = s.fetchWord := by rw [hs']; rfl
  have hdecode : decodeWord s'.variant s'.fetchWord = decodeWord s.variant s.fetchWord := by rw [hword, hs']
  refine ⟨joinBytes_toNat _ _, ?_⟩
  rw [hstep, ← hcode, ← hdecode, ← hword, ← hpc]
  refine ⟨runStep_latched, fun hrun => ?_⟩
  exact ⟨(s'.sampleInputs keys rnd).fetchAdvance, rfl, (s'.sampleInputs keys rnd).fetchAdvance_pc_toNat,
    fun _ => runStep_decoded hrun, runStep_illegal hrun⟩

end Sys2Proof.Machine
end

section
/-! Proofs about control transfer (41_control_flow): what each jump, call, return and skip writes (R150-R157), and
the exit (R158). -/

namespace Sys2Proof.Machine

variable {s : State} {i : Instr}

/-! ## The word of an instruction (R94-R96) -/

theorem decodeWord_classic_encode_extendedOnly (he : i.extendedOnly = true) :
    decodeWord .classic (encode i) = none :=
  decodeWord_classic_eq_none_iff.2 (decodeCommon_eq_none_iff.1 (decodeCommon_encode_extendedOnly he))

/-- The word of an instruction is in the instruction's row, and each variant whose tables hold the row decodes
it. -/
theorem encoded_of_wellFormed (hw : i.wellFormed = true) : Encoded i i.rowBits i.rowMask := by
  refine ⟨encode_and_rowMask i, decodeWord_eq_some_iff.2 ⟨by simp [Instr.legalIn, hw], rfl⟩, ?_⟩
  split
  case isTrue he => exact decodeWord_classic_encode_extendedOnly he
  case isFalse he => exact decodeWord_eq_some_iff.2 ⟨by simp [Instr.legalIn, hw, he], rfl⟩

/-- An instruction of the second table is illegal in `Classic`, with its own word (R96, R332). -/
theorem illegalInClassic_of_extendedOnly (he : i.extendedOnly = true) : IllegalInClassic i (encode i) :=
  fun _ hv => exec_extendedOnly_classic he hv

/-! ## Writes to `pc` (R24, R159) -/

theorem onlyPc_setPc (s : State) (w : Word) : OnlyPc s (s.setPc w) := ⟨rfl, sameBytes_of_mem_eq rfl⟩

theorem onlyPc_skipIf (s : State) (c : Bool) : OnlyPc s (s.skipIf c) := by
  cases c
  case false => exact ⟨rfl, sameBytes_of_mem_eq rfl⟩
  case true => exact onlyPc_setPc s _

theorem State.setPc_pc_toNat (s : State) (w : Word) : (s.setPc w).pc.toNat = w.toNat % 4096 :=
  BitVec.toNat_umod

/-- A 12-bit address is stored as it is (R24, R93). -/
theorem State.setPc_addrWord_pc_toNat (s : State) (nnn : Addr) : (s.setPc (addrWord nnn)).pc.toNat = nnn.toNat := by
  rw [State.setPc_pc_toNat, addrWord_toNat]
  exact Nat.mod_eq_of_lt nnn.isLt

/-- A skip moves `pc` as the fetch does (R123, R159). -/
theorem State.skip_pc_toNat (s : State) : s.skip.pc.toNat = (s.pc.toNat + 2) % 4096 :=
  s.fetchAdvance_pc_toNat

/-- An instruction that is a conditional skip moves `pc` 2 further where its condition holds, keeps it where the
condition fails, and writes nothing else (R159). -/
theorem exists_next_of_skipIf {c : Bool} {skips stays : Prop} (hexec : exec i s = .next (s.skipIf c))
    (hskip : skips → c = true) (hstay : stays → c = false) :
    ∃ t, exec i s = .next t ∧ (skips → t.pc.toNat = (s.pc.toNat + 2) % 4096) ∧ (stays → t.pc = s.pc) ∧
      OnlyPc s t := by
  refine ⟨s.skipIf c, hexec, fun h => ?_, fun h => ?_, onlyPc_skipIf s c⟩
  · rw [hskip h]; exact s.skip_pc_toNat
  · rw [hstay h]; rfl

/-! ## The offset of Bnnn (R130, R157) -/

theorem State.jumpOffset_classic (hv : s.variant = .classic) (nnn : Addr) : s.jumpOffset nnn = s.getV 0 := by
  simp [State.jumpOffset, State.q, quirk, hv]

theorem State.jumpOffset_extended (hv : s.variant = .extended) (nnn : Addr) :
    s.jumpOffset nnn = s.getV (nnn.extractLsb' 8 4) := by
  simp [State.jumpOffset, State.q, quirk, hv]

theorem extractLsb'_high_nibble (nnn : Addr) : nnn.extractLsb' 8 4 = BitVec.ofNat 4 (nnn.toNat / 256) :=
  congrArg (BitVec.ofNat 4) (Nat.shiftRight_eq_div_pow _ _)

/-- The 13-bit sum does not leave 16 bits, so only the store wraps it (R24, R157). -/
theorem State.setPc_addrWord_add_byteWord_pc_toNat (s : State) (nnn : Addr) (b : Byte) :
    (s.setPc (addrWord nnn + byteWord b)).pc.toNat = (nnn.toNat + b.toNat) % 4096 := by
  have hb : (byteWord b).toNat = b.toNat := BitVec.toNat_setWidth_of_le (by decide)
  rw [State.setPc_pc_toNat, BitVec.toNat_add, addrWord_toNat, hb]
  exact Nat.mod_mod_of_dvd _ (by decide)

/-! ## Jumps, calls, returns, skips and the exit (R150-R158) -/

/-- Settles O30: the offset register by the variant, and the sum modulo 4096. -/
theorem jumpWithOffsetAddsTheVariantsRegister : Obligations.JumpWithOffsetAddsTheVariantsRegister := by
  intro s nnn
  have hpc := s.setPc_addrWord_add_byteWord_pc_toNat nnn (s.jumpOffset nnn)
  refine ⟨encoded_of_wellFormed rfl, _, exec_jpOffset s nnn, onlyPc_setPc s _, fun hv => ?_, fun hv => ?_⟩
  · rwa [State.jumpOffset_classic hv] at hpc ⊢
  · rwa [State.jumpOffset_extended hv, extractLsb'_high_nibble] at hpc ⊢

/-- Settles O25, by what the pop finds. -/
theorem returnPopsOrRestarts : Obligations.ReturnPopsOrRestarts := by
  intro s
  refine ⟨encoded_of_wellFormed rfl, _, exec_ret s, ?_⟩
  rcases s.pop_cases with ⟨hs, hp⟩ | ⟨rest, r, hs, hp⟩ <;> rw [hp]
  case inl =>
    exact ⟨fun _ => ⟨rfl, hs⟩, fun rest r h => by simp [hs] at h, rfl, sameBytes_of_mem_eq rfl⟩
  case inr =>
    refine ⟨fun h => by simp [hs] at h, fun rest' r' h => ?_, rfl, sameBytes_of_mem_eq rfl⟩
    obtain ⟨rfl, hr⟩ := List.append_inj' (hs.symm.trans h) rfl
    cases hr
    exact ⟨State.setPc_pc_toNat _ r, rfl⟩

/-- Settles O26: the jump stores its address. -/
theorem jumpSetsThePc : Obligations.JumpSetsThePc := fun s nnn =>
  ⟨encoded_of_wellFormed rfl, _, exec_jp s nnn, s.setPc_addrWord_pc_toNat nnn, onlyPc_setPc s _⟩

/-- Settles O27, by whether the stack has room. -/
theorem callPushesAndJumpsOrOverflows : Obligations.CallPushesAndJumpsOrOverflows := by
  intro s nnn
  refine ⟨encoded_of_wellFormed rfl, ?_⟩
  rcases exec_call s nnn with ⟨hsp, hexec⟩ | ⟨hsp, hexec⟩
  case inl =>
    exact ⟨fun _ => ⟨_, hexec, State.setPc_addrWord_pc_toNat _ nnn, rfl, List.length_append, rfl,
      sameBytes_of_mem_eq rfl⟩, fun hfull => absurd hsp (Nat.not_lt.2 hfull)⟩
  case inr => exact ⟨fun hroom => absurd hroom (Nat.not_lt.2 hsp), fun _ => hexec⟩

/-- Settles O28: each is a conditional skip on the comparison of `Vx` with the immediate. -/
theorem skipOnImmediate : Obligations.SkipOnImmediate := fun s x nn =>
  ⟨⟨encoded_of_wellFormed rfl, exists_next_of_skipIf (exec_seImm s x nn) beq_iff_eq.2 beq_eq_false_iff_ne.2⟩,
    encoded_of_wellFormed rfl, exists_next_of_skipIf (exec_sneImm s x nn) bne_iff_ne.2 bne_eq_false_iff_eq.2⟩

/-- Settles O29: each is a conditional skip on the comparison of `Vx` with `Vy`. -/
theorem skipOnRegisters : Obligations.SkipOnRegisters := fun s x y =>
  ⟨⟨encoded_of_wellFormed rfl, exists_next_of_skipIf (exec_seReg s x y) beq_iff_eq.2 beq_eq_false_iff_ne.2⟩,
    encoded_of_wellFormed rfl, exists_next_of_skipIf (exec_sneReg s x y) bne_iff_ne.2 bne_eq_false_iff_eq.2⟩

/-- Settles O31: in `Extended` the exit raises; in `Classic` it is its illegal word. -/
theorem exitLatchesProgramExited : Obligations.ExitLatchesProgramExited := by
  refine ⟨encoded_of_wellFormed rfl, illegalInClassic_of_extendedOnly rfl, fun s hv => ?_⟩
  rw [exec_exit, State.extendedOnly_extended _ _ _ hv]
  rfl

end Sys2Proof.Machine
end

section
/-! Proofs about the register and arithmetic instructions (42_alu): what each writes to its destination and to
`VF`, and that it writes nothing else (R180-R192). -/

namespace Sys2Proof.Machine

variable {s : State} {i : Instr} {x y : Nibble}

/-! ## Writes to the destination and the flag (R22, R180) -/

theorem State.setV_getV_same (s : State) (x : Nibble) (b : Byte) : (s.setV x b).getV x = b :=
  (s.setV_getV x x b).trans (if_pos rfl)

theorem onlyRegisters_setV (s : State) (x : Nibble) (b : Byte) : OnlyRegisters [x] s (s.setV x b) := by
  refine ⟨rfl, fun k hk => ?_, sameBytes_of_mem_eq rfl⟩
  rw [State.setV_getV, if_neg (List.ne_of_not_mem_cons hk)]

theorem onlyRegisters_setResultFlag (s : State) (x : Nibble) (r f : Byte) :
    OnlyRegisters [x, 15] s (s.setResultFlag x r f) := by
  refine ⟨rfl, fun k hk => ?_, sameBytes_of_mem_eq rfl⟩
  obtain ⟨hx, hvf⟩ : k ≠ x ∧ k ≠ vf := by simpa using hk
  rw [State.setResultFlag_getV, if_neg hvf, if_neg hx]

/-- The flag is written last, so it stands in `VF` even where `VF` is the destination (R180). -/
theorem State.setResultFlag_getV_vf (s : State) (x : Nibble) (r f : Byte) :
    (s.setResultFlag x r f).getV vf = f :=
  (s.setResultFlag_getV x vf r f).trans (if_pos rfl)

theorem State.setResultFlag_getV_same (hx : x ≠ vf) (r f : Byte) : (s.setResultFlag x r f).getV x = r := by
  rw [State.setResultFlag_getV, if_neg hx, if_pos rfl]

/-- An instruction that writes a result and then a flag leaves the flag in `VF`, the result in a destination that
is not `VF`, and everything else as it was. -/
theorem exists_next_of_setResultFlag {r f : Byte} {flag value : Nat}
    (hexec : exec i s = .next (s.setResultFlag x r f)) (hf : f.toNat = flag) (hr : r.toNat = value) :
    ∃ t, exec i s = .next t ∧ (t.getV 15).toNat = flag ∧ (x ≠ 15 → (t.getV x).toNat = value) ∧
      OnlyRegisters [x, 15] s t := by
  refine ⟨_, hexec, ?_, fun hx => ?_, onlyRegisters_setResultFlag s x r f⟩
  · rw [State.setResultFlag_getV_vf, hf]
  · rw [State.setResultFlag_getV_same hx, hr]

/-! ## The result of a logic operation in each variant (R130, R184-R186) -/

theorem State.setLogicResult_classic (hv : s.variant = .classic) (r : Byte) :
    s.setLogicResult x r = s.setResultFlag x r 0 :=
  if_pos (s.q_logicClearsVf.2 hv)

theorem State.setLogicResult_extended (hv : s.variant = .extended) (r : Byte) :
    s.setLogicResult x r = s.setV x r :=
  if_neg (by simp [State.q_logicClearsVf, hv])

/-- The destination holds the result, except where it is the `VF` that `Classic` clears. -/
theorem State.setLogicResult_getV_same (hx : s.variant = .extended ∨ x ≠ vf) (r : Byte) :
    (s.setLogicResult x r).getV x = r := by
  cases hv : s.variant
  case classic =>
    have hx : x ≠ vf := hx.resolve_left (by simp [hv])
    rw [State.setLogicResult_classic hv, State.setResultFlag_getV_same hx]
  case extended => rw [State.setLogicResult_extended hv, State.setV_getV_same]

/-- An instruction that writes a logic result leaves it in its destination, each bit as `bit` gives it, with `VF`
cleared in `Classic` and kept in `Extended` unless it is the destination. -/
theorem exists_next_of_setLogicResult {r a b : Byte} {bit : Bool → Bool → Bool}
    (hexec : exec i s = .next (s.setLogicResult x r))
    (hbit : ∀ k, r.getLsbD k = bit (a.getLsbD k) (b.getLsbD k)) :
    ∃ t, exec i s = .next t ∧
      (s.variant = .classic → t.getV 15 = 0 ∧ OnlyRegisters [x, 15] s t) ∧
      (s.variant = .extended → OnlyRegisters [x] s t) ∧
      (s.variant = .extended ∨ x ≠ 15 → ∀ k < 8, (t.getV x).getLsbD k = bit (a.getLsbD k) (b.getLsbD k)) := by
  refine ⟨_, hexec, fun hv => ?_, fun hv => ?_, fun hx k _ => ?_⟩
  · rw [State.setLogicResult_classic hv]
    exact ⟨s.setResultFlag_getV_vf x r 0, onlyRegisters_setResultFlag s x r 0⟩
  · rw [State.setLogicResult_extended hv]
    exact onlyRegisters_setV s x r
  · rw [State.setLogicResult_getV_same hx, hbit]

/-! ## The flags and the results as numbers (R187-R191) -/

theorem flagByte_decide_toNat (p : Prop) [Decidable p] : (flagByte (decide p)).toNat = if p then 1 else 0 := by
  by_cases hp : p <;> simp [flagByte, hp]

theorem carryFlag_toNat (a b : Byte) : (carryFlag a b).toNat = if 255 < a.toNat + b.toNat then 1 else 0 :=
  flagByte_decide_toNat _

theorem noBorrowFlag_toNat (a b : Byte) : (noBorrowFlag a b).toNat = if b.toNat ≤ a.toNat then 1 else 0 :=
  flagByte_decide_toNat _

theorem shiftedOutRight_toNat (a : Byte) : (shiftedOutRight a).toNat = a.toNat % 2 :=
  (BitVec.toNat_and a 1).trans (Nat.and_one_is_mod _)

theorem shiftedOutLeft_toNat (a : Byte) : (shiftedOutLeft a).toNat = a.toNat / 128 :=
  (BitVec.toNat_ushiftRight a 7).trans (Nat.shiftRight_eq_div_pow _ 7)

/-- The difference modulo 256, in the form the spec's claims write it. -/
theorem byte_sub_toNat (a b : Byte) : (a - b).toNat = (a.toNat + 256 - b.toNat) % 256 := by
  bv_omega

theorem byte_shiftRight_one_toNat (a : Byte) : (a >>> 1).toNat = a.toNat / 2 :=
  (BitVec.toNat_ushiftRight a 1).trans (Nat.shiftRight_eq_div_pow _ 1)

theorem byte_shiftLeft_one_toNat (a : Byte) : (a <<< 1).toNat = a.toNat * 2 % 256 := by
  rw [BitVec.toNat_shiftLeft, Nat.shiftLeft_eq]

/-! ## The source of a shift (R130, R189, R191) -/

theorem State.shiftSource_classic (hv : s.variant = .classic) : s.shiftSource x y = s.getV y := by
  simp [State.shiftSource, State.q, quirk, hv]

theorem State.shiftSource_extended (hv : s.variant = .extended) : s.shiftSource x y = s.getV x := by
  simp [State.shiftSource, State.q, quirk, hv]

/-! ## The instructions (R181-R192) -/

/-- Settles O34: each operation writes a logic result, whose bits are the operation's on the operands' bits. -/
theorem logicOperationsAndTheClassicFlagClear : Obligations.LogicOperationsAndTheClassicFlagClear := by
  intro s x y
  refine ⟨encoded_of_wellFormed rfl, encoded_of_wellFormed rfl, encoded_of_wellFormed rfl, fun i bit hop => ?_⟩
  rcases hop with ⟨rfl, rfl⟩ | ⟨rfl, rfl⟩ | ⟨rfl, rfl⟩
  · exact exists_next_of_setLogicResult (exec_orReg s x y) fun _ => BitVec.getLsbD_or
  · exact exists_next_of_setLogicResult (exec_andReg s x y) fun _ => BitVec.getLsbD_and
  · exact exists_next_of_setLogicResult (exec_xorReg s x y) fun _ => BitVec.getLsbD_xor

/-- Settles O35: the sum modulo 256, and last the carry of the unwrapped sum. -/
theorem addRegistersSetsCarry : Obligations.AddRegistersSetsCarry := fun s x y =>
  ⟨encoded_of_wellFormed rfl,
    exists_next_of_setResultFlag (exec_addReg s x y) (carryFlag_toNat _ _) (BitVec.toNat_add _ _)⟩

/-- Settles O36: SUB and SUBN are one subtraction with the operands exchanged. -/
theorem subtractionsSetNoBorrow : Obligations.SubtractionsSetNoBorrow := by
  intro s x y
  refine ⟨encoded_of_wellFormed rfl, encoded_of_wellFormed rfl, fun i a b hop => ?_⟩
  have hexec : exec i s = .next (s.setResultFlag x (a - b) (noBorrowFlag a b)) := by
    rcases hop with ⟨rfl, rfl, rfl⟩ | ⟨rfl, rfl, rfl⟩
    · exact exec_subReg s x y
    · exact exec_subnReg s x y
  exact exists_next_of_setResultFlag hexec (noBorrowFlag_toNat a b) (byte_sub_toNat a b)

/-- Settles O37: the source register by the variant, and last the bit the shift pushes out of it. -/
theorem shiftsCatchTheBitShiftedOut : Obligations.ShiftsCatchTheBitShiftedOut := by
  intro s x y a ha
  have hsource : s.shiftSource x y = a := by
    cases hv : s.variant <;> rw [hv] at ha
    case classic => rw [State.shiftSource_classic hv, ha]
    case extended => rw [State.shiftSource_extended hv, ha]
  subst hsource
  exact ⟨⟨encoded_of_wellFormed rfl, exists_next_of_setResultFlag (exec_shr s x y) (shiftedOutRight_toNat _)
      (byte_shiftRight_one_toNat _)⟩,
    encoded_of_wellFormed rfl, exists_next_of_setResultFlag (exec_shl s x y) (shiftedOutLeft_toNat _)
      (byte_shiftLeft_one_toNat _)⟩

/-- Settles O32: each writes its destination alone, and the sum wraps. -/
theorem loadAndAddImmediate : Obligations.LoadAndAddImmediate := by
  intro s x nn
  refine ⟨⟨encoded_of_wellFormed rfl, _, exec_ldImm s x nn, s.setV_getV_same x nn, onlyRegisters_setV s x nn⟩,
    encoded_of_wellFormed rfl, _, exec_addImm s x nn, ?_, onlyRegisters_setV s x _⟩
  rw [State.setV_getV_same, BitVec.toNat_add]

/-- Settles O33: the copy writes its destination alone. -/
theorem copyRegister : Obligations.CopyRegister := fun s x y =>
  ⟨encoded_of_wellFormed rfl, _, exec_ldReg s x y, s.setV_getV_same x _, onlyRegisters_setV s x _⟩

/-- Settles O38: the destination alone is written, with the conjunction of the input and the mask. -/
theorem randomByteUnderAMask : Obligations.RandomByteUnderAMask := by
  intro s x nn
  refine ⟨encoded_of_wellFormed rfl, _, exec_rnd s x nn, fun k _ => ?_, onlyRegisters_setV s x _⟩
  rw [State.setV_getV_same, BitVec.getLsbD_and]

end Sys2Proof.Machine
end

section
/-! Proofs about the index register, memory and user-flag instructions (43_index_memory): what each writes to `I`,
to memory and to the two banks, and that it writes nothing else (R230-R238). -/

namespace Sys2Proof.Machine

variable {s : State} {i : Instr} {x : Nibble}

/-! ## Writes to `I` (R26) -/

theorem onlyIndex_setI (s : State) (w : Word) : OnlyIndex s (s.setI w) := ⟨rfl, sameBytes_of_mem_eq rfl⟩

/-- An instruction that writes `I` leaves the word in it and everything else as it was. -/
theorem exists_next_of_setI {w : Word} {value : Nat} (hexec : exec i s = .next (s.setI w))
    (hw : w.toNat = value) : ∃ t, exec i s = .next t ∧ t.i.toNat = value ∧ OnlyIndex s t :=
  ⟨_, hexec, hw, onlyIndex_setI s w⟩

theorem add_byteWord_toNat (w : Word) (b : Byte) : (w + byteWord b).toNat = (w.toNat + b.toNat) % 65536 := by
  have hb : (byteWord b).toNat = b.toNat := BitVec.toNat_setWidth_of_le (by decide)
  rw [BitVec.toNat_add, hb]

theorem lowNibble_eq_mod (b : Byte) : lowNibble b = b.toNat % 16 :=
  (BitVec.toNat_and b 15).trans (Nat.and_two_pow_sub_one_eq_mod b.toNat 4)

/-- No glyph address leaves 16 bits, so it is the sum the rule writes (R232). -/
theorem smallGlyphAddr_toNat (b : Byte) : (smallGlyphAddr b).toNat = 0x050 + b.toNat % 16 * 5 := by
  rw [smallGlyphAddr, BitVec.toNat_ofNat, lowNibble_eq_mod, smallFontBase, smallGlyphSize]
  omega

theorem bigGlyphAddr_toNat (b : Byte) : (bigGlyphAddr b).toNat = 0x0A0 + b.toNat % 16 * 10 := by
  rw [bigGlyphAddr, BitVec.toNat_ofNat, lowNibble_eq_mod, bigFontBase, bigGlyphSize]
  omega

/-! ## The post-increment of Fx55 and Fx65 (R130, R235, R236) -/

theorem State.postIncrementI_i_toNat_classic (hv : s.variant = .classic) (x : Nibble) :
    (s.postIncrementI x).i.toNat = (s.i.toNat + x.toNat + 1) % 65536 := by
  rw [State.postIncrementI_eq, if_pos (s.q_ldstIncrementsI.2 hv), BitVec.toNat_add, BitVec.toNat_ofNat]
  omega

theorem State.postIncrementI_extended (hv : s.variant = .extended) (x : Nibble) : s.postIncrementI x = s :=
  if_neg (by simp [State.q_ldstIncrementsI, hv])

@[simp] theorem State.postIncrementI_readByte (s : State) (x : Nibble) (a : Nat) :
    (s.postIncrementI x).readByte a = s.readByte a := by
  rw [State.postIncrementI_eq]
  rfl

@[simp] theorem State.postIncrementI_getV (s : State) (x k : Nibble) : (s.postIncrementI x).getV k = s.getV k := by
  rw [State.postIncrementI_eq]
  rfl

/-! ## Stores at `I` (R234, R235) -/

/-- What is no more than a byte, as its decimal digits are, is stored as it is. -/
theorem toNat_ofNat_of_le_byte (b : Byte) {n : Nat} (h : n ≤ b.toNat) : (BitVec.ofNat 8 n).toNat = n :=
  (BitVec.toNat_ofNat n 8).trans (Nat.mod_eq_of_lt (h.trans_lt b.isLt))

/-- Settles O41: the three digits are stored in one run, and memory alone is written. -/
theorem decimalDigitsAreStored : Obligations.DecimalDigitsAreStored := by
  intro s x
  have hlen : (bcdDigits (s.getV x)).length ≤ 4096 := by simp [bcdDigits]
  exact ⟨encoded_of_wellFormed rfl, _, _, _, _, exec_ldB s x, wroteBytes_writeBytes _ hlen,
    toNat_ofNat_of_le_byte _ (Nat.div_le_self _ _),
    toNat_ofNat_of_le_byte _ ((Nat.mod_le _ _).trans (Nat.div_le_self _ _)),
    toNat_ofNat_of_le_byte _ (Nat.mod_le _ _), State.writeBytes_eq _ s _⟩

/-- Settles O42: `V0` to `Vx` are stored in one run, and then `I` moves where the variant has the
post-increment. -/
theorem registersAreStoredAtIndex : Obligations.RegistersAreStoredAtIndex := by
  intro s x
  have hlen := s.length_firstRegs x
  have hwrote := wroteBytes_writeBytes (s := s) s.i.toNat (bytes := s.firstRegs x) (by omega)
  have hframe := State.writeBytes_eq (s.firstRegs x) s s.i.toNat
  refine ⟨encoded_of_wellFormed rfl, _, _, exec_storeRegs s x, by simpa [WroteBytes] using hwrote, hlen,
    fun k => State.getElem?_firstRegs, fun hv => ?_, fun hv => ?_, ?_⟩
  · rw [State.postIncrementI_i_toNat_classic ((State.writeBytes_variant _ _).trans hv), hframe]
  · rw [State.postIncrementI_extended ((State.writeBytes_variant _ _).trans hv), hframe]
  · rw [State.postIncrementI_eq, hframe]

/-! ## Runs of registers loaded and saved (R236-R238) -/

/-- Settles O43: `V0` to `Vx` take the bytes at `I` and after, and then `I` moves where the variant has the
post-increment. -/
theorem registersAreLoadedFromIndex : Obligations.RegistersAreLoadedFromIndex := by
  intro s x
  refine ⟨encoded_of_wellFormed rfl, _, exec_loadRegs s x, fun k hk => ?_, fun k hk => ?_, fun hv => ?_,
    fun hv => ?_, ?_, fun a => State.postIncrementI_readByte _ x a⟩
  · rw [State.postIncrementI_getV, State.setVUpTo_getV, if_pos hk]
  · rw [State.postIncrementI_getV, State.setVUpTo_getV, if_neg hk]
  · exact State.postIncrementI_i_toNat_classic (s := s.setVUpTo x _) hv x
  · rw [State.postIncrementI_extended (s := s.setVUpTo x _) hv, State.setVUpTo_i]
  · rw [State.postIncrementI_eq]
    rfl

/-- Settles O44: the load reads the bytes the store wrote, whatever the registers hold in between. -/
theorem storeThenLoadGivesTheRegistersBack : Obligations.StoreThenLoadGivesTheRegistersBack := by
  intro s t x between h
  obtain ⟨-, t', bytes, hstore, ⟨hwrote, -⟩, -, hbytes, -⟩ := registersAreStoredAtIndex s x
  obtain rfl : t' = t := Host.Outcome.next.inj (hstore.symm.trans h)
  obtain ⟨-, u, hload, hloaded, -⟩ := registersAreLoadedFromIndex { t' with v := between, i := s.i } x
  exact ⟨u, hload, fun k hk => (hloaded k hk).trans (hwrote _ _ (hbytes k hk))⟩

/-- Settles O45: in `Extended` each copies one bank into the other up to `Vx`. -/
theorem userFlagsSaveAndRestore : Obligations.UserFlagsSaveAndRestore := by
  intro s x
  have hindex (k : Nibble) : BitVec.ofNat 4 k.toNat = k := ofNat_eq_of_toNat_eq rfl
  refine ⟨encoded_of_wellFormed rfl, illegalInClassic_of_extendedOnly rfl, encoded_of_wellFormed rfl,
    illegalInClassic_of_extendedOnly rfl, fun hv => ?_⟩
  rw [exec_saveFlags, exec_loadFlags, State.extendedOnly_extended _ _ _ hv, State.extendedOnly_extended _ _ _ hv]
  refine ⟨⟨_, rfl, fun k hk => ?_, fun k hk => ?_, rfl, sameBytes_of_mem_eq rfl⟩,
    ⟨_, rfl, fun k hk => ?_, fun k hk => ?_, rfl, sameBytes_of_mem_eq rfl⟩⟩
  · rw [State.setUfUpTo_getUf, if_pos hk, hindex]
  · rw [State.setUfUpTo_getUf, if_neg hk]
  · rw [State.setVUpTo_getV, if_pos hk, hindex]
  · rw [State.setVUpTo_getV, if_neg hk]

/-! ## Loads of `I` (R230-R233) -/

/-- Settles O39: each writes `I` alone, and the sum wraps at 16 bits. -/
theorem setAndAddToIndex : Obligations.SetAndAddToIndex :=
  ⟨fun s nnn => ⟨encoded_of_wellFormed rfl, exists_next_of_setI (exec_ldI s nnn) (addrWord_toNat nnn)⟩,
    fun s x => ⟨encoded_of_wellFormed rfl, exists_next_of_setI (exec_addI s x) (add_byteWord_toNat _ _)⟩⟩

/-- Settles O40: each writes `I` alone, with the address of the glyph of the low nibble. -/
theorem glyphAddresses : Obligations.GlyphAddresses := by
  intro s x
  refine ⟨⟨encoded_of_wellFormed rfl, exists_next_of_setI (exec_ldF s x) (smallGlyphAddr_toNat _)⟩,
    encoded_of_wellFormed rfl, illegalInClassic_of_extendedOnly rfl, fun hv => ?_⟩
  refine exists_next_of_setI ?_ (bigGlyphAddr_toNat _)
  rw [exec_ldHf, State.extendedOnly_extended _ _ _ hv]

end Sys2Proof.Machine
end

section
/-! Proofs about the display (44_display): the logical grid (R269), what a draw of each form flips and counts
(R261-R263), that a draw undoes itself, and what the clear, the scrolls and the resolution instructions write. -/

namespace Sys2Proof.Machine

variable {s : State} {x y n : Nibble}

/-! ## The logical grid (R269) -/

theorem State.geometry_classic (hv : s.variant = .classic) : s.geometry = ⟨64, 32, 1⟩ := by
  simp [State.geometry, hv]

theorem State.geometry_highRes (hv : s.variant = .extended) (hres : s.highRes = true) :
    s.geometry = ⟨128, 64, 1⟩ := by
  simp [State.geometry, hv, hres]

theorem State.geometry_lowRes (hv : s.variant = .extended) (hres : s.highRes = false) :
    s.geometry = ⟨64, 32, 2⟩ := by
  simp [State.geometry, hv, hres]

theorem State.geometry_lh_pos (s : State) : 0 < s.geometry.lh := by
  unfold State.geometry
  split <;> decide

theorem Geometry.mem_block_iff_exists (g : Geometry) (lx ly c r : Nat) :
    (c, r) ∈ g.block lx ly ↔
      ∃ dx dy, dx < g.scale ∧ dy < g.scale ∧ c = g.scale * lx + dx ∧ r = g.scale * ly + dy := by
  simp only [Geometry.block, List.mem_flatMap, List.mem_map, List.mem_range, Prod.mk.injEq]
  constructor
  · rintro ⟨dy, hdy, dx, hdx, hc, hr⟩
    exact ⟨dx, dy, hdx, hdy, hc.symm, hr.symm⟩
  · rintro ⟨dx, dy, hdx, hdy, hc, hr⟩
    exact ⟨dy, hdy, dx, hdx, hc.symm, hr.symm⟩

/-- Settles O46: the mode selects the grid, and a block lists the cells at the offsets below the scale. -/
theorem logicalGridOfEachMode : Obligations.LogicalGridOfEachMode := fun s =>
  ⟨State.geometry_classic, State.geometry_highRes, State.geometry_lowRes, s.geometry.mem_block_iff_exists⟩

/-! ## The sprite of each form (R261-R263) -/

theorem State.bigSprite_of_n_ne_zero (hn : n ≠ 0) : s.bigSprite n = false := by
  rw [State.bigSprite, beq_false_of_ne hn, Bool.and_false]

theorem State.bigSprite_highRes (hv : s.variant = .extended) (hres : s.highRes = true) :
    s.bigSprite 0 = true := by
  simp [State.bigSprite, hv, hres]

theorem State.bigSprite_elsewhere (h : s.variant = .classic ∨ s.highRes = false) : s.bigSprite 0 = false := by
  rcases h with h | h <;> simp [State.bigSprite, h]

theorem State.sprite_cx (s : State) (x y n : Nibble) : (s.sprite x y n).cx = (s.getV x).toNat % s.geometry.lw := rfl

theorem State.sprite_cy (s : State) (x y n : Nibble) : (s.sprite x y n).cy = (s.getV y).toNat % s.geometry.lh := rfl

theorem State.sprite_width (s : State) (x y n : Nibble) :
    (s.sprite x y n).width = if s.bigSprite n then 16 else 8 := rfl

theorem State.sprite_rows_length (s : State) (x y n : Nibble) :
    (s.sprite x y n).rows.length = if s.bigSprite n then 16 else n.toNat := by
  simp [State.sprite]

theorem State.sprite_rows_length_le (s : State) (x y n : Nibble) : (s.sprite x y n).rows.length ≤ 16 := by
  rw [State.sprite_rows_length]
  split
  · rfl
  · exact n.isLt.le

theorem State.sprite_rows_getD {k : Nat} (hk : k < (s.sprite x y n).rows.length) :
    (s.sprite x y n).rows.getD k 0 = s.spriteRow (s.bigSprite n) k := by
  rw [List.getD_eq_getElem _ _ hk]
  simp [State.sprite]

/-- A row of the 8-wide form is a byte, bit 7 leftmost (R262). -/
theorem State.spriteRow_narrow_getLsbD (row col : Nat) :
    (s.spriteRow false row).getLsbD (8 - 1 - col) = (s.readByte (s.i.toNat + row)).getLsbD (7 - col) := by
  have hbit : 7 - col < 16 := by omega
  simp [State.spriteRow, byteWord, hbit]

/-- A row of the 16-wide form is two bytes, the high byte first and bit 15 leftmost (R64, R263). -/
theorem State.spriteRow_wide_getLsbD (row : Nat) {col : Nat} (hcol : col < 16) :
    (s.spriteRow true row).getLsbD (16 - 1 - col) =
      if col < 8 then (s.readByte (s.i.toNat + 2 * row)).getLsbD (7 - col)
      else (s.readByte (s.i.toNat + 2 * row + 1)).getLsbD (15 - col) := by
  simp only [State.spriteRow, if_true, State.readWord, joinBytes, BitVec.getLsbD_append]
  split_ifs with hlow hleft hleft
  · omega
  · rfl
  · congr 1; omega
  · omega

/-! ## What a draw writes (R261, R270) -/

/-- A draw turns over the cells of its sprite and leaves every other cell alone. -/
theorem State.draw_lit (s : State) (x y n : Nibble) (c r : Nat) :
    FrameBuffer.lit (s.draw x y n).fb c r =
      (FrameBuffer.lit s.fb c r ^^ decide ((c, r) ∈ (s.sprite x y n).cells s.geometry)) :=
  (plotCells_spec s.fb _ ((s.sprite x y n).nodup_cells s.geometry s.geometry_scale_pos)).1 c r

theorem spriteFlag_toNat (hit : Bool) {clipped : Nat} (h : clipped ≤ 16) :
    (spriteFlag hit clipped).toNat = hit.toNat + clipped := by
  cases hit <;> simp [spriteFlag] <;> omega

/-- The rows counted in `VF`: in `Extended`, those that reach below the grid. -/
theorem State.clippedRows_sprite (s : State) (x y n : Nibble) :
    s.clippedRows (s.sprite x y n) =
      if s.variant = .extended then
        (s.getV y).toNat % s.geometry.lh + (s.sprite x y n).rows.length - s.geometry.lh
      else 0 := by
  have hstart : (s.sprite x y n).cy < s.geometry.lh := Nat.mod_lt _ s.geometry_lh_pos
  unfold State.clippedRows
  cases hv : s.variant
  case classic => rfl
  case extended => exact Sprite.rowsBelow_eq _ _ hstart

theorem State.clippedRows_sprite_le (s : State) (x y n : Nibble) : s.clippedRows (s.sprite x y n) ≤ 16 := by
  have hstart : (s.getV y).toNat % s.geometry.lh < s.geometry.lh := Nat.mod_lt _ s.geometry_lh_pos
  have hrows := s.sprite_rows_length_le x y n
  rw [State.clippedRows_sprite]
  split <;> omega

/-- No row is counted in `Classic`, nor where the sprite ends on the grid. -/
theorem State.clippedRows_sprite_eq_zero (h : s.variant = .classic ∨
    (s.getV y).toNat % s.geometry.lh + (s.sprite x y n).rows.length ≤ s.geometry.lh) :
    s.clippedRows (s.sprite x y n) = 0 := by
  rw [State.clippedRows_sprite]
  rcases h with hv | hfits
  · rw [hv]; rfl
  · rw [Nat.sub_eq_zero_of_le hfits, ite_self]

/-- Of the cells listed, one is lit. -/
theorem any_lit_iff (fb : FrameBuffer) (cells : List (Nat × Nat)) :
    (cells.any fun p => FrameBuffer.lit fb p.1 p.2) = true ↔
      ∃ c r, (c, r) ∈ cells ∧ FrameBuffer.lit fb c r = true := by
  rw [List.any_eq_true, Prod.exists]

/-- `VF` after a draw is the collision bit plus the rows counted. -/
theorem State.draw_getV_vf_toNat (s : State) (x y n : Nibble) :
    ((s.draw x y n).getV vf).toNat =
      (((s.sprite x y n).cells s.geometry).any fun p => FrameBuffer.lit s.fb p.1 p.2).toNat +
        s.clippedRows (s.sprite x y n) := by
  have hhit := (plotCells_spec s.fb _ ((s.sprite x y n).nodup_cells s.geometry s.geometry_scale_pos)).2
  rw [← hhit, ← spriteFlag_toNat _ (s.clippedRows_sprite_le x y n)]
  exact congrArg BitVec.toNat (State.setV_getV_same _ vf _)

theorem State.draw_getV_vf_toNat_of_hit
    (h : ∃ c r, (c, r) ∈ (s.sprite x y n).cells s.geometry ∧ FrameBuffer.lit s.fb c r = true) :
    ((s.draw x y n).getV vf).toNat = 1 + s.clippedRows (s.sprite x y n) := by
  rw [State.draw_getV_vf_toNat, (any_lit_iff _ _).2 h, Bool.toNat_true]

theorem State.draw_getV_vf_toNat_of_no_hit
    (h : ¬ ∃ c r, (c, r) ∈ (s.sprite x y n).cells s.geometry ∧ FrameBuffer.lit s.fb c r = true) :
    ((s.draw x y n).getV vf).toNat = s.clippedRows (s.sprite x y n) := by
  rw [State.draw_getV_vf_toNat, Bool.eq_false_iff.2 (mt (any_lit_iff _ _).1 h), Bool.toNat_false, Nat.zero_add]

section

/-! A sprite described as the claims describe it: its size, and a `pixel` that agrees with its rows of bits. -/

variable {width rows : Nat} {pixel : Nat → Nat → Bool}
    (hwidth : (s.sprite x y n).width = width) (hrows : (s.sprite x y n).rows.length = rows)
    (hpixel : ∀ row col, col < width → (s.spriteRow (s.bigSprite n) row).getLsbD (width - 1 - col) = pixel row col)

include hwidth hrows hpixel

/-- The cells a draw flips are those under the set pixels of its sprite. -/
theorem State.mem_sprite_cells_iff (c r : Nat) :
    (c, r) ∈ (s.sprite x y n).cells s.geometry ↔
      spriteCovers s.geometry ((s.getV x).toNat % s.geometry.lw) ((s.getV y).toNat % s.geometry.lh) width rows
        pixel c r := by
  subst hwidth hrows
  rw [Sprite.mem_cells _ _ _ _ s.geometry_scale_pos, State.sprite_cx, State.sprite_cy]
  constructor
  · rintro ⟨htop, hbottom, hlh, hleft, hright, hlw, hbit⟩
    rw [State.sprite_rows_getD (by omega), hpixel _ _ (by omega)] at hbit
    exact ⟨hleft, hright, hlw, htop, hbottom, hlh, hbit⟩
  · rintro ⟨hleft, hright, hlw, htop, hbottom, hlh, hbit⟩
    refine ⟨htop, hbottom, hlh, hleft, hright, hlw, ?_⟩
    rw [State.sprite_rows_getD (by omega)]
    exact (hpixel _ _ (by omega)).trans hbit

theorem drewSprite_draw :
    DrewSprite s (s.draw x y n) ((s.getV x).toNat % s.geometry.lw) ((s.getV y).toNat % s.geometry.lh) width rows
      pixel := by
  have hclipped := s.clippedRows_sprite x y n
  rw [hrows] at hclipped
  unfold DrewSprite
  simp only [← State.mem_sprite_cells_iff hwidth hrows hpixel, ← hclipped]
  refine ⟨fun c r hin => ?_, fun c r hout => ?_, State.draw_getV_vf_toNat_of_hit, State.draw_getV_vf_toNat_of_no_hit,
    fun k hk => State.draw_getV hk x y n, s.draw_eq x y n, sameBytes_of_mem_eq rfl⟩
  · rw [State.draw_lit, decide_eq_true hin, Bool.xor_true]
  · rw [State.draw_lit, decide_eq_false hout, Bool.xor_false]

end

/-- Dxy0 outside `Extended` high-res draws no row (R261). -/
theorem State.sprite_rows_elsewhere (h : s.variant = .classic ∨ s.highRes = false) : (s.sprite x y 0).rows = [] := by
  rw [← List.length_eq_zero_iff, State.sprite_rows_length, State.bigSprite_elsewhere h]
  rfl

theorem State.draw_elsewhere (h : s.variant = .classic ∨ s.highRes = false) (x y : Nibble) :
    s.draw x y 0 = (s.setDisplay s.fb).setV vf 0 := by
  have hrows := State.sprite_rows_elsewhere h (x := x) (y := y)
  have hcells : (s.sprite x y 0).cells s.geometry = [] := by rw [Sprite.cells, hrows]; rfl
  have hclipped : s.clippedRows (s.sprite x y 0) = 0 :=
    State.clippedRows_sprite_eq_zero (.inr (by rw [hrows]; exact (Nat.mod_lt _ s.geometry_lh_pos).le))
  simp only [State.draw, hcells, hclipped]
  rfl

/-- Settles O48, by the form: the 8-wide sprite, the 16×16 sprite, and no row at all. -/
theorem drawXorsTheSpriteOfEachForm : Obligations.DrawXorsTheSpriteOfEachForm := by
  intro s x y
  refine ⟨fun n hn => ⟨encoded_of_wellFormed (by simpa [Instr.wellFormed] using hn), _, exec_drw s x y n, ?_⟩,
    encoded_of_wellFormed rfl, fun hv hres => ⟨_, exec_drw0 s x y, ?_⟩, fun h => ⟨_, exec_drw0 s x y, ?_⟩⟩
  · have hform := s.bigSprite_of_n_ne_zero hn
    refine drewSprite_draw ?_ ?_ fun row col _ => ?_
    · rw [State.sprite_width, hform]; rfl
    · rw [State.sprite_rows_length, hform]; rfl
    · rw [hform, State.spriteRow_narrow_getLsbD]
  · have hform := State.bigSprite_highRes hv hres
    have hgrid := State.geometry_highRes hv hres
    have hx : (s.getV x).toNat % 128 = (s.getV x).toNat % s.geometry.lw := by rw [hgrid]
    have hy : (s.getV y).toNat % 64 = (s.getV y).toNat % s.geometry.lh := by rw [hgrid]
    rw [hx, hy]
    refine drewSprite_draw ?_ ?_ fun row col hcol => ?_
    · rw [State.sprite_width, hform]; rfl
    · rw [State.sprite_rows_length, hform]; rfl
    · rw [hform, State.spriteRow_wide_getLsbD row hcol]
  · rw [State.draw_elsewhere h]
    exact ⟨State.setV_getV_same _ vf 0, fun k hk => (State.setV_getV _ vf k 0).trans (if_neg hk), rfl,
      sameBytes_of_mem_eq rfl⟩

/-! ## The same draw twice (R261, R270) -/

/-- A draw whose coordinates are not `VF` leaves the sprite it drew to the next draw. -/
theorem State.sprite_draw (hx : x ≠ vf) (hy : y ≠ vf) : (s.draw x y n).sprite x y n = s.sprite x y n := by
  have hVx := State.draw_getV hx x y n (s := s)
  have hVy := State.draw_getV hy x y n (s := s)
  unfold State.sprite
  rw [hVx, hVy]
  rfl

theorem State.draw_draw_fb (hs : s.Inv) (hx : x ≠ vf) (hy : y ≠ vf) : ((s.draw x y n).draw x y n).fb = s.fb := by
  refine FrameBuffer.ext_of_lit _ _ _ _ ((hs.draw x y n).draw x y n).wf_fb hs.wf_fb fun c r => ?_
  have hgrid : (s.draw x y n).geometry = s.geometry := rfl
  rw [State.draw_lit, State.draw_lit, State.sprite_draw hx hy, hgrid, Bool.xor_assoc, Bool.xor_self, Bool.xor_false]

/-- A cell the first draw lit is one of its sprite, so the second draw finds it lit. -/
theorem State.draw_draw_getV_vf (hx : x ≠ vf) (hy : y ≠ vf) (hclipped : s.clippedRows (s.sprite x y n) = 0)
    (hlit : ∃ c r, FrameBuffer.lit (s.draw x y n).fb c r = true ∧ FrameBuffer.lit s.fb c r = false) :
    ((s.draw x y n).draw x y n).getV vf = 1 := by
  obtain ⟨c, r, hafter, hbefore⟩ := hlit
  have hcell : (c, r) ∈ (s.sprite x y n).cells s.geometry := by
    simpa [State.draw_lit, hbefore] using hafter
  have hvf := State.draw_getV_vf_toNat_of_hit (s := s.draw x y n) (x := x) (y := y) (n := n)
    ⟨c, r, by rw [State.sprite_draw hx hy]; exact hcell, hafter⟩
  rw [State.sprite_draw hx hy] at hvf
  exact BitVec.eq_of_toNat_eq (hvf.trans (congrArg (1 + ·) hclipped))

/-- Settles O49: both instructions are one draw, whose sprite is the same the second time. -/
theorem drawingTwiceGivesTheDisplayBack : Obligations.DrawingTwiceGivesTheDisplayBack := by
  intro s t u x y n hs hx hy
  refine ⟨fun ht hu => ?_, fun ht hu => ?_⟩
  · cases ht
    cases hu
    refine ⟨State.draw_draw_fb hs hx hy, fun hlit hn hfits => State.draw_draw_getV_vf hx hy ?_ hlit⟩
    refine State.clippedRows_sprite_eq_zero (hfits.imp_right fun hfits => ?_)
    simpa [State.sprite_rows_length, State.bigSprite_of_n_ne_zero hn] using hfits
  · cases ht
    cases hu
    refine ⟨State.draw_draw_fb hs hx hy, fun hlit hv hres hfits => State.draw_draw_getV_vf hx hy ?_ hlit⟩
    refine State.clippedRows_sprite_eq_zero (.inr ?_)
    rw [State.sprite_rows_length, State.bigSprite_highRes hv hres, State.geometry_highRes hv hres]
    exact hfits

/-! ## Clear and scrolls (R260, R264-R266) -/

theorem onlyDisplay_setDisplay (s : State) (fb : FrameBuffer) : OnlyDisplay s (s.setDisplay fb) :=
  ⟨rfl, sameBytes_of_mem_eq rfl⟩

/-- Settles O47: the buffer becomes the one that lists no lit cell. -/
theorem clearScreenUnlightsEveryCell : Obligations.ClearScreenUnlightsEveryCell := fun s =>
  ⟨encoded_of_wellFormed rfl, _, exec_cls s, FrameBuffer.lit_nil, onlyDisplay_setDisplay s []⟩

/-- Settles O50: in `Extended` each scroll sets the display to the moved buffer, 128 columns wide. -/
theorem horizontalScrollsMoveColumns : Obligations.HorizontalScrollsMoveColumns := by
  refine ⟨encoded_of_wellFormed rfl, illegalInClassic_of_extendedOnly rfl, encoded_of_wellFormed rfl,
    illegalInClassic_of_extendedOnly rfl, fun s k hv hk => ?_⟩
  have hcolumns : s.scrollColumns = k := hk.symm
  rw [exec_scr, exec_scl, State.extendedOnly_extended _ _ _ hv, State.extendedOnly_extended _ _ _ hv, hcolumns, hv]
  refine ⟨⟨_, rfl, onlyDisplay_setDisplay s _, fun c r hc _ => ?_⟩,
    ⟨_, rfl, onlyDisplay_setDisplay s _, fun c r _ _ => ?_⟩⟩
  · rw [State.setDisplay_fb, FrameBuffer.lit_scrollRight]
    by_cases hin : k ≤ c <;> simp [displayWidth, hc, hin]
  · rw [State.setDisplay_fb, FrameBuffer.lit_scrollLeft]
    by_cases hin : c + k < 128 <;> simp [displayWidth, hin]

/-- Settles O51: in `Extended` the scroll sets the display to the moved buffer, 64 rows high. -/
theorem verticalScrollMovesRows : Obligations.VerticalScrollMovesRows := by
  intro s n
  refine ⟨encoded_of_wellFormed rfl, illegalInClassic_of_extendedOnly rfl, fun hv => ?_⟩
  rw [exec_scd, State.extendedOnly_extended _ _ _ hv, hv]
  refine ⟨_, rfl, onlyDisplay_setDisplay s _, fun c r d _ hr hd => ?_⟩
  have hrows : s.scrollRows n = d := hd.symm
  rw [State.setDisplay_fb, FrameBuffer.lit_scrollDown, hrows]
  simp [displayHeight, hr]

/-! ## The resolution (R267, R268) -/

/-- Settles O52: in `Extended` each sets `high_res`, and in `Classic` it is its illegal word. -/
theorem lowAndHighSelectTheResolution : Obligations.LowAndHighSelectTheResolution := by
  refine ⟨encoded_of_wellFormed rfl, illegalInClassic_of_extendedOnly rfl, encoded_of_wellFormed rfl,
    illegalInClassic_of_extendedOnly rfl, fun s hv => ?_⟩
  rw [exec_low, exec_high, State.extendedOnly_extended _ _ _ hv, State.extendedOnly_extended _ _ _ hv]
  exact ⟨rfl, rfl⟩

end Sys2Proof.Machine
end

section
/-! Proofs about the keys and the timers (45_keys_timers): the skips on a key (R300-R302), the key wait and its
latch (R304, R305), and the reads and writes of the timers (R306-R308). -/

namespace Sys2Proof.Machine

variable {s t : State} {keys : Word} {rnd : Byte}

/-! ## The roll-back of Fx0A (R304) -/

theorem sub_two_mod_toNat (w : Word) : ((w - 2) % 4096).toNat = (w.toNat + 65536 - 2) % 4096 := by
  rw [BitVec.toNat_umod, BitVec.toNat_sub, show (2 : Word).toNat = 2 from rfl, show (4096 : Word).toNat = 4096 from rfl]
  omega

/-- Going back by 2 after the fetch is back at the instruction, also where the fetch has wrapped. -/
theorem State.fetchAdvance_pc_sub_two (hpc : s.pc.toNat < 4096) : (s.fetchAdvance.pc - 2) % 4096 = s.pc := by
  apply BitVec.eq_of_toNat_eq
  rw [sub_two_mod_toNat, State.fetchAdvance_pc_toNat]
  omega

theorem State.fetchWord_congr (hpc : t.pc = s.pc) (hmem : t.mem = s.mem) : t.fetchWord = s.fetchWord := by
  simp only [State.fetchWord, State.readWord, State.readByte, hpc, hmem]

/-! ## The latch outside a key wait (R305) -/

theorem State.keyWaitInv_of_latch_eq_zero (h : s.latch = 0) : s.KeyWaitInv := fun hne => absurd h hne

/-- In a started, running machine, a wait is in progress where the fetch reads the word that decoded as an Fx0A. -/
theorem State.keyWaitInv_of_same_fetch {x : Nibble} (hstarted : t.started = true)
    (hrun : t.status.code = .running) (hvariant : t.variant = s.variant) (hpc : t.pc = s.pc)
    (hmem : t.mem = s.mem) (hd : decodeWord s.variant s.fetchWord = some (.ldVxK x)) : t.KeyWaitInv := by
  refine fun _ => ⟨hstarted, hrun, x, ?_⟩
  rw [hvariant, State.fetchWord_congr hpc hmem, hd]

theorem State.KeyWaitInv.latch_eq_zero_of_not_started (hs : s.KeyWaitInv) (h : s.started = false) :
    s.latch = 0 := by
  by_contra hne
  obtain ⟨hstarted, -⟩ := hs hne
  rw [h] at hstarted
  cases hstarted

theorem State.KeyWaitInv.latch_eq_zero_of_not_running (hs : s.KeyWaitInv) (h : s.status.code ≠ .running) :
    s.latch = 0 := by
  by_contra hne
  obtain ⟨-, hrun, -⟩ := hs hne
  exact h hrun

theorem State.KeyWaitInv.latch_eq_zero_of_not_waiting (hs : s.KeyWaitInv)
    (h : ∀ x, decodeWord s.variant s.fetchWord ≠ some (.ldVxK x)) : s.latch = 0 := by
  by_contra hne
  obtain ⟨-, -, x, hx⟩ := hs hne
  exact h x hx

theorem exec_latch {i : Instr} (hi : ∀ x, i ≠ .ldVxK x) (h : exec i s = .next t) : t.latch = s.latch := by
  obtain ⟨-, -, -, -, -, -, -, -, hlatch, -⟩ := everyOtherPieceOfStateHasOnlyItsWriters i s t h
  exact hlatch hi

@[simp] theorem State.writeBytes_latch (a : Nat) (bs : List Byte) : (s.writeBytes a bs).latch = s.latch := by
  rw [State.writeBytes_eq]

/-- A load runs before the first STEP only, where no key wait is in progress (R69). -/
theorem State.KeyWaitInv.writeBytes (hs : s.KeyWaitInv) (hstarted : s.started = false) (a : Nat)
    (bytes : List Byte) : (s.writeBytes a bytes).KeyWaitInv :=
  State.keyWaitInv_of_latch_eq_zero
    ((State.writeBytes_latch a bytes).trans (hs.latch_eq_zero_of_not_started hstarted))

/-- A STEP on an Fx0A ends the wait with the latch cleared, or goes back to the same Fx0A. -/
theorem exec_ldVxK_keyWaitInv {x : Nibble} (hpc : s.pc.toNat < 4096) (hrun : s.status.code = .running)
    (hd : decodeWord s.variant s.fetchWord = some (.ldVxK x))
    (h : exec (.ldVxK x) (s.sampleInputs keys rnd).fetchAdvance = .next t) : t.KeyWaitInv := by
  rw [exec_ldVxK] at h
  split at h <;> cases h
  · exact State.keyWaitInv_of_latch_eq_zero rfl
  · have hback := State.fetchAdvance_pc_sub_two (s := s.sampleInputs keys rnd) hpc
    exact State.keyWaitInv_of_same_fetch (s := s) rfl hrun rfl hback rfl hd

theorem runStep_keyWaitInv (hpc : s.pc.toNat < 4096) (hs : s.KeyWaitInv) (h : s.runStep keys rnd = .next t) :
    t.KeyWaitInv := by
  rcases runStep_cases s keys rnd with ⟨hlatched, hr⟩ | ⟨-, hd, hr⟩ | ⟨i, hrun, hd, hr⟩ <;> rw [hr] at h
  · cases h
    exact State.keyWaitInv_of_latch_eq_zero (hs.latch_eq_zero_of_not_running hlatched)
  · cases h
    exact State.keyWaitInv_of_latch_eq_zero (hs.latch_eq_zero_of_not_waiting (by simp [hd]))
  · by_cases hi : ∃ x, i = .ldVxK x
    · obtain ⟨x, rfl⟩ := hi
      exact exec_ldVxK_keyWaitInv hpc hrun hd h
    · rw [not_exists] at hi
      have hlatch : s.latch = 0 := hs.latch_eq_zero_of_not_waiting fun x hx => hi x (by simpa [hd] using hx)
      exact State.keyWaitInv_of_latch_eq_zero ((exec_latch hi h).trans hlatch)

theorem runCommand_keyWaitInv {c : Command} (hpc : s.pc.toNat < 4096) (hs : s.KeyWaitInv)
    (h : s.runCommand c = .next t) : t.KeyWaitInv := by
  cases c
  case reset var => cases h; exact State.keyWaitInv_of_latch_eq_zero rfl
  case loadFont bytes => obtain ⟨hstarted, -, rfl⟩ := runLoadFont_eq_next_iff.1 h; exact hs.writeBytes hstarted _ _
  case loadBigFont bytes =>
    obtain ⟨hstarted, -, -, rfl⟩ := runLoadBigFont_eq_next_iff.1 h
    exact hs.writeBytes hstarted _ _
  case loadProgram bytes =>
    obtain ⟨hstarted, -, rfl⟩ := runLoadProgram_eq_next_iff.1 h
    exact hs.writeBytes hstarted _ _
  case step keys rnd => exact runStep_keyWaitInv hpc hs h
  case timerTick => cases h; exact hs

/-- Settles O4: of the commands only a STEP on an Fx0A writes a latch that is not 0, and it goes back to that
Fx0A, whose address is in range (R38). -/
theorem latchIsZeroOutsideAKeyWait : Obligations.LatchIsZeroOutsideAKeyWait := by
  intro s t hinv hs h
  obtain ⟨hpc, -⟩ := hinv
  cases hp : s.pending with
  | nil =>
    rw [step_nil s hp] at h
    exact runCommand_keyWaitInv (s := { s with draws := s.draws + 1 }) hpc hs h
  | cons c cs =>
    rw [step_cons s c cs hp] at h
    exact runCommand_keyWaitInv (s := { s with pending := cs }) hpc hs h

/-! ## The key Fx0A reports (R304) -/

/-- A key is released where it was held at the last poll and is not held now. -/
theorem getLsbD_released_iff (cur latch : Word) {k : Nat} (hk : k < 16) :
    (latch &&& ~~~cur).getLsbD k = true ↔ latch.getLsbD k = true ∧ cur.getLsbD k = false := by
  simp [hk]

/-- Settles O54, by whether the mask has decreased: the lowest set bit of the released keys, or the roll-back. -/
theorem keyWaitReportsTheLowestReleasedKey : Obligations.KeyWaitReportsTheLowestReleasedKey := by
  intro s x
  refine ⟨encoded_of_wellFormed rfl, _, exec_ldVxK s x, ?_⟩
  by_cases hdec : s.keys < s.latch
  · rw [if_pos hdec]
    refine ⟨sameBytes_of_mem_eq rfl, fun _ => ⟨?_, fun k hk => ?_, rfl⟩, fun hge => absurd hdec hge⟩
    · obtain ⟨hlt, hset, hlower⟩ := lowbit_spec _ (released_ne_zero _ _ hdec)
      obtain ⟨hheld, hfree⟩ := (getLsbD_released_iff _ _ hlt).1 hset
      refine ⟨_, hlt, ?_, hheld, hfree, fun j hj hrel => ?_⟩
      · rw [State.setLatch_getV, State.setV_getV_same, BitVec.toNat_ofNat]
        omega
      · have hnot := hlower j hj
        rw [(getLsbD_released_iff _ _ (hj.trans hlt)).2 hrel] at hnot
        cases hnot
    · rw [State.setLatch_getV, State.setV_getV, if_neg hk]
  · rw [if_neg hdec]
    exact ⟨sameBytes_of_mem_eq rfl, fun hlt => absurd hlt hdec, fun _ => ⟨sub_two_mod_toNat _, rfl⟩⟩

/-! ## Skips on a key (R300-R302) -/

theorem State.keyHeld_eq (s : State) (x : Nibble) : s.keyHeld x = s.keys.getLsbD ((s.getV x).toNat % 16) := by
  rw [State.keyHeld, lowNibble_eq_mod]

/-- Settles O53: each is a conditional skip on whether the key is held. -/
theorem skipOnKey : Obligations.SkipOnKey := by
  intro s x held hheld
  obtain rfl : s.keyHeld x = held := (s.keyHeld_eq x).trans hheld.symm
  exact ⟨⟨encoded_of_wellFormed rfl, exists_next_of_skipIf (exec_skp s x) id id⟩,
    encoded_of_wellFormed rfl, exists_next_of_skipIf (exec_sknp s x) (congrArg not) (congrArg not)⟩

/-! ## Timers (R306-R308) -/

/-- Settles O55: the read writes its destination alone, and each set is one write of a timer. -/
theorem timerRegistersAreReadAndSet : Obligations.TimerRegistersAreReadAndSet := fun s x =>
  ⟨⟨encoded_of_wellFormed rfl, _, exec_ldVxDt s x, s.setV_getV_same x _, onlyRegisters_setV s x _⟩,
    ⟨encoded_of_wellFormed rfl, exec_ldDtVx s x⟩, encoded_of_wellFormed rfl, exec_ldStVx s x⟩

end Sys2Proof.Machine
end

section
/-! Proofs about the exceptions and the timers (60_exceptions): the outcomes a STEP raises (R330), the sticky error
latch (R334), and TIMER_TICK (R350). -/

namespace Sys2Proof.Machine

variable {s t u : State} {i : Instr} {c : Command} {k : Nat}

/-! ## A step in a latched machine (R334) -/

/-- The two states agree in every field but DT, ST, `updated` and the model's own `pending` and `draws`. -/
def SameButTimers (s t : State) : Prop :=
  t = { s with dt := t.dt, st := t.st, updated := t.updated, pending := t.pending, draws := t.draws }

theorem SameButTimers.trans (hst : SameButTimers s t) (htu : SameButTimers t u) : SameButTimers s u := by
  unfold SameButTimers at *
  rw [htu, hst]

theorem SameButTimers.status_eq (h : SameButTimers s t) : t.status = s.status := by
  rw [SameButTimers] at h
  rw [h]

theorem SameButTimers.started_eq (h : SameButTimers s t) : t.started = s.started := by
  rw [SameButTimers] at h
  rw [h]

/-- No RESET is in the schedule, nor among the free commands that `k` steps draw after it. -/
def NoResetWithin (k : Nat) (s : State) : Prop :=
  (∀ v, Command.reset v ∉ s.pending) ∧
    ∀ n v, s.draws ≤ n → n < s.draws + (k - s.pending.length) → Config.freeCommand n ≠ .reset v

theorem NoResetWithin.congr (h : NoResetWithin k s) (hp : t.pending = s.pending) (hd : t.draws = s.draws) :
    NoResetWithin k t := by
  unfold NoResetWithin
  rw [hp, hd]
  exact h

/-- The next command, scheduled or drawn, is no RESET, and none of the commands after it is. -/
theorem NoResetWithin.nextCommand (h : NoResetWithin (k + 1) s) :
    (∀ v, s.nextCommand.1 ≠ .reset v) ∧ NoResetWithin k s.nextCommand.2 := by
  obtain ⟨hpending, hfree⟩ := h
  unfold State.nextCommand
  cases hp : s.pending with
  | cons c cs =>
    simp only [hp, List.mem_cons, not_or, List.length_cons, Nat.add_sub_add_right] at hpending hfree
    exact ⟨fun v => Ne.symm (hpending v).1, fun v => (hpending v).2, hfree⟩
  | nil =>
    simp only [hp, List.length_nil] at hpending hfree
    refine ⟨fun v => hfree s.draws v le_rfl (by omega), by simp, fun n v hle hlt => ?_⟩
    simp only [List.length_nil] at hle hlt
    exact hfree n v (by omega) (by omega)

theorem sameButTimers_nextCommand (s : State) : SameButTimers s s.nextCommand.2 := by
  unfold State.nextCommand
  cases s.pending <;> rfl

/-- In a latched, started machine a load is refused, a STEP clears `updated`, and TIMER_TICK counts the timers. -/
theorem runCommand_latched (hs : s.status.code ≠ .running) (hstarted : s.started = true)
    (hc : ∀ v, c ≠ .reset v) (h : s.runCommand c = .next t) :
    SameButTimers s t ∧ t.pending = s.pending ∧ t.draws = s.draws := by
  cases c
  case reset v => exact absurd rfl (hc v)
  case loadFont bytes =>
    obtain ⟨hfresh, -⟩ := runLoadFont_eq_next_iff.1 h
    cases hstarted.symm.trans hfresh
  case loadBigFont bytes =>
    obtain ⟨hfresh, -⟩ := runLoadBigFont_eq_next_iff.1 h
    cases hstarted.symm.trans hfresh
  case loadProgram bytes =>
    obtain ⟨hfresh, -⟩ := runLoadProgram_eq_next_iff.1 h
    cases hstarted.symm.trans hfresh
  case step keys rnd => cases (runStep_latched hs).symm.trans h; exact ⟨rfl, rfl, rfl⟩
  case timerTick => cases h; exact ⟨rfl, rfl, rfl⟩

/-- One step in a latched, started machine, where no RESET comes. -/
theorem step_latched (hs : s.status.code ≠ .running) (hstarted : s.started = true)
    (hk : NoResetWithin (k + 1) s) (h : step s = .next t) : SameButTimers s t ∧ NoResetWithin k t := by
  obtain ⟨hc, hk'⟩ := hk.nextCommand
  have hnext := sameButTimers_nextCommand s
  obtain ⟨hsame, hpending, hdraws⟩ :=
    runCommand_latched (hnext.status_eq ▸ hs) (hnext.started_eq.trans hstarted) hc h
  exact ⟨hnext.trans hsame, hk'.congr hpending hdraws⟩

theorem run_succ_eq_next (h : Host.Core.run Sys2Proof.core (k + 1) s = .next t) :
    ∃ u, step s = .next u ∧ Host.Core.run Sys2Proof.core k u = .next t := by
  cases hs : step s with
  | next u => exact ⟨u, rfl, (run_next s k u hs).symm.trans h⟩
  | fault f => cases f
  | refused r => cases (run_refused s k r hs).symm.trans h

/-- The run of a latched machine, by induction on the number of steps. -/
theorem run_latched (hs : s.status.code ≠ .running) (hstarted : s.started = true)
    (hk : NoResetWithin k s) (h : Host.Core.run Sys2Proof.core k s = .next t) : SameButTimers s t := by
  induction k generalizing s with
  | zero => cases h; rfl
  | succ k ih =>
    obtain ⟨u, hstep, hrun⟩ := run_succ_eq_next h
    obtain ⟨hsame, hk'⟩ := step_latched hs hstarted hk hstep
    exact hsame.trans (ih (hsame.status_eq ▸ hs) (hsame.started_eq.trans hstarted) hk' hrun)

/-- Settles O12: the run of a latched machine without a RESET keeps what each of its steps keeps, and RESET
leaves `State.resetFor`, which runs. -/
theorem errorLatchIsStickyUntilReset : Obligations.ErrorLatchIsStickyUntilReset :=
  ⟨fun _ _ _ hs hstarted hpending hfree hrun => run_latched hs hstarted ⟨hpending, hfree⟩ hrun,
    fun _ _ => ⟨_, rfl, rfl⟩⟩

/-! ## The outcomes of a STEP (R330) -/

theorem State.faulted_iff (s : State) :
    s.faulted = true ↔ s.status.code = .stackOverflow ∨ s.status.code = .illegalInstruction := by
  unfold State.faulted
  cases s.status.code <;> decide

/-- An instruction that is neither an exit nor a call of a full stack raises nothing, in a variant that has it. -/
theorem exec_keeps_status (hv : i.extendedOnly = true → s.variant = .extended) (h : exec i s = .next t)
    (hcall : ¬ ((∃ nnn, i = .call nnn) ∧ 16 ≤ s.sp)) (hexit : i ≠ .exit) :
    t.status = s.status := by
  have hroom : ∀ nnn, i = .call nnn → s.sp < 16 := fun nnn hi => Nat.not_le.1 fun hsp => hcall ⟨⟨nnn, hi⟩, hsp⟩
  have hlegal : s.variant = .classic → i.extendedOnly = false := fun hc =>
    Bool.eq_false_iff.2 fun hi => by cases hc.symm.trans (hv hi)
  obtain ⟨-, -, -, -, -, -, -, -, -, -, hstatus, -⟩ := everyOtherPieceOfStateHasOnlyItsWriters i s t h
  exact (hstatus hexit hroom hlegal).1

theorem exec_call_full_status {nnn : Addr} (h : exec (.call nnn) s = .next t) (hsp : 16 ≤ s.sp) :
    t.status = ⟨.stackOverflow, 0⟩ := by
  obtain ⟨-, -, hfull⟩ := callPushesAndJumpsOrOverflows s nnn
  cases (hfull hsp).symm.trans h
  rfl

theorem exec_exit_status (h : exec .exit s = .next t) (hv : s.variant = .extended) :
    t.status = ⟨.programExited, 0⟩ := by
  obtain ⟨-, -, hext⟩ := exitLatchesProgramExited
  cases (hext s hv).symm.trans h
  rfl

/-- Settles O16, by what the STEP finds: a latched machine, a word with no row, or an instruction, which is a call
of a full stack, an exit, or neither. -/
theorem onlyThreeOutcomesAreRaised : Obligations.OnlyThreeOutcomesAreRaised := by
  refine ⟨rfl, rfl, rfl, rfl, State.faulted_iff, fun s keys rnd => ?_⟩
  rcases runStep_cases s keys rnd with ⟨hs, h⟩ | ⟨hrun, hd, h⟩ | ⟨i, hrun, hd, h⟩
  · exact ⟨_, h, fun _ => rfl, fun hrun => absurd hrun hs⟩
  · exact ⟨_, h, absurd hrun, fun _ => ⟨fun _ => rfl, by simp [hd]⟩⟩
  · obtain ⟨t, ht⟩ := exec_next (s.sampleInputs keys rnd).fetchAdvance i
    have hv := variant_of_decodeWord hd
    refine ⟨t, h.trans ht, absurd hrun, fun _ => ⟨by simp [hd], fun j hj => ?_⟩⟩
    obtain rfl : i = j := Option.some.inj (hd.symm.trans hj)
    refine ⟨?_, ?_, exec_keeps_status (s := (s.sampleInputs keys rnd).fetchAdvance) hv ht⟩
    · rintro ⟨⟨nnn, rfl⟩, hsp⟩
      exact exec_call_full_status ht hsp
    · rintro rfl
      exact exec_exit_status ht (hv rfl)

/-! ## TIMER_TICK (R350) -/

theorem countDown_of_eq_zero {b : Byte} (hb : b = 0) : countDown b = 0 := if_pos hb

theorem countDown_toNat_of_ne_zero {b : Byte} (hb : b ≠ 0) : (countDown b).toNat = b.toNat - 1 := by
  have hle : 1 ≤ b := by bv_omega
  rw [countDown, if_neg hb, BitVec.toNat_sub_of_le hle]
  rfl

/-- Settles O18: each timer counts down once. -/
theorem timerTickCountsBothTimersDown : Obligations.TimerTickCountsBothTimersDown := fun s =>
  ⟨s.runTimerTick, rfl, countDown_toNat_of_ne_zero, countDown_of_eq_zero, countDown_toNat_of_ne_zero,
    countDown_of_eq_zero, rfl, sameBytes_of_mem_eq rfl⟩

end Sys2Proof.Machine
end
